-- ==== Sys2Proof/Word.lean ====
section
/-! DEFINITION. The words of the block: the widths that `00_scope.md` R8 and R9 fix. -/

namespace Sys2Proof

/-- A byte; bit 7 is its high bit (R12). -/
abbrev Byte := BitVec 8

/-- The unsigned integer value that is encoded and decoded (`VW` = 64, R8). -/
abbrev Value := BitVec 64

/-- A window of nine byte lanes, lane `k` on bits `8k+7 : 8k` (R47). -/
abbrev Window := BitVec 72

/-- One strobe per lane (R72). -/
abbrev Strobe := BitVec 9

/-- The length fields of the ports (`LENW` = 4, R30). -/
abbrev Len := BitVec 4

/-- A 7-bit group: the payload of a flagged or terminal byte (R75). -/
abbrev Group := BitVec 7

end Sys2Proof
end

