-- ==== Sys2Proof/Config.lean ====
section
/-! DEFINITION. What is fixed for the block (R8), the default numbers of engines (R9), and the one free value. -/

namespace Sys2Proof.Config

/-- `MAXLEN`: the most bytes of an encoding and the size of every window (R8). -/
abbrev maxLen : Nat := 9

/-- `FLAG`: the continuation flag, bit 7 of a byte (R8). -/
abbrev flag : Byte := 0x80#8

/-- `PAYLOAD_MASK`: the low seven bits of a byte (R8). -/
abbrev payloadMask : Byte := 0x7F#8

/-- `T1`: the largest value of the one-byte path (R8). -/
abbrev t1 : Value := 0x7F#64

/-- `T2`: the largest value of the two-byte path (R8). -/
abbrev t2 : Value := 0x3FFF#64

/-- `N_ENC`. OPEN in the spec (D12); this is the default it names. DESIGN CHOICE, log 5: only `State.reset` and
`WellFormed` use it, the machine itself takes any number of encoders. -/
abbrev nEnc : Nat := 1

/-- `N_DEC`, likewise. -/
abbrev nDec : Nat := 1

/-- FREE VALUE (log 4): which of several enabled engines moves next when no script says so. The spec leaves transactions on
different engines unordered (R53 (c)). Applied to the counter `tick`; nothing constrains it. -/
opaque arbiter : Nat → Nat

end Sys2Proof.Config
end

