-- ==== Sys2Proof/Syntax.lean ====
section
/-! DEFINITION. The instructions: one constructor per row of `spec/opcode_table.json`, and the request records they cross the
ports as. -/

namespace Sys2Proof

/-- The operations and wire formats of the opcode table (R93). No row has an opcode field: the port a request arrives on selects
the operation (R70), so the first argument of each constructor is the number of the engine whose request port it is (log 1).
The payload letters are those of the table's `encoding` strings; `pad` is the lanes past the encoding (R90), highest lane in
the most significant byte. -/
inductive Instr where
  /-- `VENC`, R100: record `ENC-REQ` (R71). -/
  | venc (engine : Nat) (value : Value)
  /-- `VDEC`, R130: record `DEC-REQ` (R73), the whole window. -/
  | vdec (engine : Nat) (window : Window)
  /-- `VARINT.L1`, R76: `0aaaaaaa`. -/
  | varintL1 (engine : Nat) (a : Group) (pad : BitVec 64)
  /-- `VARINT.L2`, R77. -/
  | varintL2 (engine : Nat) (a b : Group) (pad : BitVec 56)
  /-- `VARINT.L3`, R78. -/
  | varintL3 (engine : Nat) (a b c : Group) (pad : BitVec 48)
  /-- `VARINT.L4`, R79. -/
  | varintL4 (engine : Nat) (a b c d : Group) (pad : BitVec 40)
  /-- `VARINT.L5`, R80. -/
  | varintL5 (engine : Nat) (a b c d e : Group) (pad : BitVec 32)
  /-- `VARINT.L6`, R81. -/
  | varintL6 (engine : Nat) (a b c d e f : Group) (pad : BitVec 24)
  /-- `VARINT.L7`, R82. -/
  | varintL7 (engine : Nat) (a b c d e f g : Group) (pad : BitVec 16)
  /-- `VARINT.L8`, R83. -/
  | varintL8 (engine : Nat) (a b c d e f g h : Group) (pad : BitVec 8)
  /-- `VARINT.L9`, R84: eight flagged bytes and one full byte `i`. -/
  | varintL9 (engine : Nat) (a b c d e f g h : Group) (i : Byte)
  deriving DecidableEq, Repr

/-- Which rows of the opcode table name an offered decoder window: the operation row `VDEC` or the nine wire rows. Every window
is in both; the tag is the model's own and no signal (log 2). -/
inductive Reading where
  | operation
  | format
  deriving DecidableEq, Repr

/-- What an engine samples at the accept step (R46): the port it arrives on and every bit of the record (R70, R71, R73). -/
inductive Request where
  | enc (engine : Nat) (value : Value)
  | dec (engine : Nat) (reading : Reading) (window : Window)
  deriving DecidableEq, Repr

end Sys2Proof
end

