-- ==== Sys2Proof/Decode.lean ====
section
/-! DEFINITION. Decoding a request into an instruction, from bytes and from ports, and the encoder that inverts it. -/

namespace Sys2Proof

/-! ### The wire rows (R87) -/

/-- A wire row of the opcode table: its length, and its mask and match over the 72-bit window. -/
structure WireRow where
  len : Nat
  mask : Window
  pattern : Window
  deriving DecidableEq, Repr

/-- The nine rows of R87, in the table's order. -/
def wireRows : List WireRow :=
  [ ⟨1, 0x000000000000000080#72, 0x000000000000000000#72⟩,
    ⟨2, 0x000000000000008080#72, 0x000000000000000080#72⟩,
    ⟨3, 0x000000000000808080#72, 0x000000000000008080#72⟩,
    ⟨4, 0x000000000080808080#72, 0x000000000000808080#72⟩,
    ⟨5, 0x000000008080808080#72, 0x000000000080808080#72⟩,
    ⟨6, 0x000000808080808080#72, 0x000000008080808080#72⟩,
    ⟨7, 0x000080808080808080#72, 0x000000808080808080#72⟩,
    ⟨8, 0x008080808080808080#72, 0x000080808080808080#72⟩,
    ⟨9, 0x008080808080808080#72, 0x008080808080808080#72⟩ ]

/-- The window fits the row: `(dec_req_data & mask) == match` (R87). -/
def WireRow.fits (r : WireRow) (w : Window) : Bool := w &&& r.mask == r.pattern

/-- The length of the first row of the list that fits; 9 where none does, as R87 has it. -/
def findFormat (w : Window) : List WireRow → Nat
  | [] => Config.maxLen
  | r :: rs => if r.fits w then r.len else findFormat w rs

/-- The format of a window: `n` for `Ln` (R87). -/
def formatOf (w : Window) : Nat := findFormat w wireRows

/-- The payload group at offset `k`: bits `8k+6 : 8k` of the window (R75). -/
def groupAt (w : Window) (k : Nat) : Group := w.extractLsb' (8 * k) 7

/-- Read a window by the wire row that fits it: each letter at its `bits_in_window`, the rest pad (R76 to R84, R90, R93). -/
def decodeWire (n : Nat) (w : Window) : Instr :=
  match formatOf w with
  | 1 => .varintL1 n (groupAt w 0) (w.extractLsb' 8 64)
  | 2 => .varintL2 n (groupAt w 0) (groupAt w 1) (w.extractLsb' 16 56)
  | 3 => .varintL3 n (groupAt w 0) (groupAt w 1) (groupAt w 2) (w.extractLsb' 24 48)
  | 4 => .varintL4 n (groupAt w 0) (groupAt w 1) (groupAt w 2) (groupAt w 3) (w.extractLsb' 32 40)
  | 5 => .varintL5 n (groupAt w 0) (groupAt w 1) (groupAt w 2) (groupAt w 3) (groupAt w 4) (w.extractLsb' 40 32)
  | 6 => .varintL6 n (groupAt w 0) (groupAt w 1) (groupAt w 2) (groupAt w 3) (groupAt w 4) (groupAt w 5) (w.extractLsb' 48 24)
  | 7 => .varintL7 n (groupAt w 0) (groupAt w 1) (groupAt w 2) (groupAt w 3) (groupAt w 4) (groupAt w 5) (groupAt w 6) (w.extractLsb' 56 16)
  | 8 => .varintL8 n (groupAt w 0) (groupAt w 1) (groupAt w 2) (groupAt w 3) (groupAt w 4) (groupAt w 5) (groupAt w 6) (groupAt w 7) (w.extractLsb' 64 8)
  | _ => .varintL9 n (groupAt w 0) (groupAt w 1) (groupAt w 2) (groupAt w 3) (groupAt w 4) (groupAt w 5) (groupAt w 6) (groupAt w 7) (w.extractLsb' 64 8)

/-- The decoder, total: the port selects the operation (R70) and no request is illegal (R89). A window offered for reading by
format gives its wire row, one offered for reading as an operation gives `VDEC` (log 2). -/
def decode : Request → Instr
  | .enc e v => .venc e v
  | .dec n .operation w => .vdec n w
  | .dec n .format w => decodeWire n w

/-! ### From bytes -/

/-- Why a byte buffer is no request: the one contract violation, a buffer too short (R58, R182). `got` is its length. -/
inductive DecodeError where
  /-- fewer than the eight bytes of an `ENC-REQ` record (the byte form of the record is the model's, log 20) -/
  | shortRecord (got : Nat)
  /-- fewer than the nine bytes of a decoder window (R58) -/
  | shortBuffer (got : Nat)
  deriving DecidableEq, Repr

/-- The port that a byte buffer is offered on, and the reading for a decoder. -/
inductive PortSelect where
  | enc (engine : Nat)
  | dec (engine : Nat) (reading : Reading)
  deriving DecidableEq, Repr

/-- The lane word of a byte sequence of at most nine bytes: offset `k` on lane `k` (R47), missing bytes 0. -/
def laneWord : List Byte → Window
  | [] => 0
  | b :: bs => (laneWord bs <<< 8) ||| b.setWidth 72

/-- The window at the head of a byte buffer: its first nine bytes (R42). -/
def packWindow (bs : List Byte) : Window := laneWord (bs.take Config.maxLen)

/-- The request record in a byte buffer; bytes past the record are not part of it. -/
def requestOfBytes (sel : PortSelect) (bs : List Byte) : Except DecodeError Request :=
  match sel with
  | .enc e => if bs.length < 8 then .error (.shortRecord bs.length) else .ok (.enc e ((laneWord (bs.take 8)).setWidth 64))
  | .dec n r => if bs.length < Config.maxLen then .error (.shortBuffer bs.length) else .ok (.dec n r (packWindow bs))

/-- The decoder on bytes: total, and rejecting by name. -/
def decodeBytes (sel : PortSelect) (bs : List Byte) : Except DecodeError Instr :=
  (requestOfBytes sel bs).map decode

/-! ### The encoder -/

/-- A terminal byte: flag clear, the group in bits 6:0 (R75). -/
def terminalByte (g : Group) : Byte := g.setWidth 8

/-- A flagged byte: flag set, the group in bits 6:0 (R75). -/
def flaggedByte (g : Group) : Byte := Config.flag ||| g.setWidth 8

/-- The bytes of an encoding from offset 0 on, and the pad in the lanes past it (R90). -/
def padded {m : Nat} (bytes : List Byte) (pad : BitVec m) : Window :=
  (pad.setWidth 72 <<< (8 * bytes.length)) ||| laneWord bytes

/-- The request record of an instruction, from the layouts of R71, R73 and R76 to R84. -/
def encode : Instr → Request
  | .venc e v => .enc e v
  | .vdec n w => .dec n .operation w
  | .varintL1 n a pad =>
    .dec n .format (padded [terminalByte a] pad)
  | .varintL2 n a b pad =>
    .dec n .format (padded [flaggedByte a, terminalByte b] pad)
  | .varintL3 n a b c pad =>
    .dec n .format (padded [flaggedByte a, flaggedByte b, terminalByte c] pad)
  | .varintL4 n a b c d pad =>
    .dec n .format (padded [flaggedByte a, flaggedByte b, flaggedByte c, terminalByte d] pad)
  | .varintL5 n a b c d e pad =>
    .dec n .format (padded [flaggedByte a, flaggedByte b, flaggedByte c, flaggedByte d, terminalByte e] pad)
  | .varintL6 n a b c d e f pad =>
    .dec n .format (padded [flaggedByte a, flaggedByte b, flaggedByte c, flaggedByte d, flaggedByte e, terminalByte f] pad)
  | .varintL7 n a b c d e f g pad =>
    .dec n .format (padded [flaggedByte a, flaggedByte b, flaggedByte c, flaggedByte d, flaggedByte e, flaggedByte f, terminalByte g] pad)
  | .varintL8 n a b c d e f g h pad =>
    .dec n .format (padded [flaggedByte a, flaggedByte b, flaggedByte c, flaggedByte d, flaggedByte e, flaggedByte f, flaggedByte g, terminalByte h] pad)
  | .varintL9 n a b c d e f g h i =>
    .dec n .format (padded [flaggedByte a, flaggedByte b, flaggedByte c, flaggedByte d, flaggedByte e, flaggedByte f, flaggedByte g, flaggedByte h, i] (0#0))

/-! ### Words numbered as the opcode table numbers them -/

/-- The first `n` bytes of a number, least significant first. -/
def bytesOf : Nat → Nat → List Byte
  | 0, _ => []
  | n + 1, w => BitVec.ofNat 8 w :: bytesOf n (w / 256)

/-- The port that a table word of `nbits` bits is offered on (log 17): no bit of a word selects the operation (R70), so the
row's width does. A wire row `Ln` has `8n` bits, the record of `VENC` 64 (R71) and that of `VDEC` 72 (R73). A 64-bit word that
is no `L8` encoding is taken for `VENC`, a 72-bit word that is no `L9` encoding for `VDEC`, a row without any bits for `VENC`. -/
def tableSelect (nbits w : Nat) : PortSelect :=
  let format := formatOf (BitVec.ofNat 72 w)
  if nbits = 0 ∨ (nbits = 64 ∧ format ≠ 8) then .enc 0
  else if nbits = 72 ∧ format ≠ 9 then .dec 0 .operation
  else .dec 0 .format

/-- The request that a table word stands for: its bytes, the bits above `nbits` zero, on the port it is offered on. -/
def tableRequest (nbits w : Nat) : Except DecodeError Request :=
  requestOfBytes (tableSelect nbits w) (bytesOf 9 w)

/-- The instruction that the decoder reads from a table word. -/
def decodeTableWord (nbits w : Nat) : Option Instr :=
  (decodeBytes (tableSelect nbits w) (bytesOf 9 w)).toOption

end Sys2Proof
end

