-- ==== Sys2Proof/Machine/State.lean ====
section
/-! DEFINITION. The state: the slots of the engines (R24), the input signals of their ports (R25, R28), and the host's side as far
as the rules speak of it (R32, R52, R222). Plain data. -/

namespace Sys2Proof.Machine

/-! ### Responses and slots -/

/-- The response record of `VENC`, format `ENC-RSP` (R72). -/
structure EncRsp where
  /-- nine lanes, lane `k` on bits `8k+7 : 8k` -/
  data : Window
  /-- `strb[k]` is set iff offset `k` was written -/
  strb : Strobe
  /-- bytes written -/
  len : Len
  deriving DecidableEq, Repr

/-- The response record of `VDEC`, format `DEC-RSP` (R74). -/
structure DecRsp where
  value : Value
  /-- bytes consumed -/
  len : Len
  deriving DecidableEq, Repr

/-- The slot of an engine, its only state (R24). -/
inductive Slot (ρ : Type) where
  /-- idle: the engine can accept a request -/
  | empty
  /-- an accepted request's response, not yet taken by the host -/
  | full (r : ρ)
  deriving DecidableEq, Repr

/-! ### Ports -/

/-- One engine: its slot, and the signals the host drives on its port (R25, R28). -/
structure Port (κ ρ : Type) where
  slot : Slot ρ
  /-- `req_valid` with the request payload: `none` is a deasserted valid -/
  req : Option κ
  /-- `rsp_ready` -/
  rspReady : Bool
  deriving DecidableEq, Repr

/-- What the host offers to a decoder: `dec_req_data`, and by which rows of the table it is read (log 2). -/
structure Offer where
  window : Window
  reading : Reading
  deriving DecidableEq, Repr

/-- An encoder instance (R25). -/
abbrev EncPort := Port Value EncRsp

/-- A decoder instance (R28). -/
abbrev DecPort := Port Offer DecRsp

/-- Which engine: instances of a kind are numbered from 0 (R192). -/
inductive EngineId where
  | enc (i : Nat)
  | dec (i : Nat)
  deriving DecidableEq, Repr

/-- A response the host has received, and the engine it came from (R27). -/
inductive Response where
  | enc (i : Nat) (r : EncRsp)
  | dec (i : Nat) (r : DecRsp)
  deriving DecidableEq, Repr

/-! ### The host's side -/

/-- The host's bytes: its caller-owned buffers (R32 (b)). Canonical form: addresses strictly rising; an unlisted address has no
value (log 13). -/
abbrev Memory := List Host.Cell

/-- A move of the host or of an engine (R11, R222). A run is a sequence of such moves (R232). -/
inductive Event where
  /-- the host asserts (`true`) or releases `rst` (R210) -/
  | setRst (asserted : Bool)
  /-- the host offers `VENC v` to encoder `i` -/
  | offerEnc (i : Nat) (v : Value)
  /-- the host offers a window to decoder `i` -/
  | offerDec (i : Nat) (offer : Offer)
  /-- the host deasserts `req_valid` of an engine -/
  | withdraw (e : EngineId)
  /-- the host drives `rsp_ready` of an engine -/
  | setReady (e : EngineId) (ready : Bool)
  /-- a rising edge of `clk` at which engine `e` takes its enabled step, accept or deliver (R26, R27) -/
  | engine (e : EngineId)
  /-- the host copies the strobed lanes of the last response of encoder `i` to its buffer of `room` bytes at `base` (R41, R223) -/
  | storeStrobed (i base room : Nat)
  /-- the host copies all nine lanes instead (R111, R223) -/
  | storeAllLanes (i base room : Nat)
  /-- the host offers to decoder `i` the window at its position, its data ending before `fin`, filled up with `pad` (R42, R52, R225) -/
  | offerStream (i : Nat) (reading : Reading) (fin : Nat) (pad : List Byte)
  /-- the host advances its position by the last response of decoder `i` (R52, R227) -/
  | advance (i : Nat)
  /-- the host sets its position (R52) -/
  | seek (p : Nat)
  /-- the host writes a byte of its memory (R32) -/
  | poke (address : Nat) (b : Byte)
  deriving DecidableEq, Repr

/-! ### The state -/

/-- The whole state. -/
structure State where
  /-- the reset input, common to all engines (R210) -/
  rst : Bool
  /-- the encoders, `N_ENC` of them (R24, R192) -/
  encs : List EncPort
  /-- the decoders, `N_DEC` of them -/
  decs : List DecPort
  /-- the responses the host has received, newest first (R27) -/
  received : List Response
  /-- the host's memory (R32) -/
  hostMem : Memory
  /-- the host's position `p` in a stream of varints (R52) -/
  hostPos : Nat
  /-- the moves to come (the model's own field, log 3) -/
  script : List Event
  /-- the counter the free value `Config.arbiter` is applied to (the model's own field, log 4) -/
  tick : Nat
  deriving DecidableEq, Repr

/-- The faults: none. R180: "The block raises no synchronous exception." -/
inductive Fault where
  deriving DecidableEq, Repr

/-- Why a move has no step. Every one but `notModelled` is about the host, none about an admitted request. All are safe: the
model stops where nothing is said to happen. -/
inductive Refusal where
  /-- raised by `exec` for an instruction that has no meaning yet; safe -/
  | notModelled (mnemonic : String)
  /-- raised by instructions and moves that name an engine the block does not have (R192, R222: the host has no other way to
  touch the block); safe -/
  | noEngine (e : EngineId)
  /-- raised by an offer that changes a pending one (R222, U10: "the model has no step for a withdrawn or changing offer"), the
  reading tag of a decoder offer included (the model's choice, log 22); safe -/
  | changedOffer (e : EngineId)
  /-- raised by the withdrawal of a pending offer (R222, U10); safe -/
  | withdrawnOffer (e : EngineId)
  /-- raised by a transfer between a window and a host buffer of fewer than nine bytes (R58, R182, U1, U2); safe -/
  | shortBuffer (bytes : Nat)
  /-- raised by a read of a host byte that nothing has written (log 13); safe -/
  | unwrittenByte (address : Nat)
  /-- raised by a host move that uses a response of an engine that has delivered none (log 15); safe -/
  | noResponse (e : EngineId)
  deriving DecidableEq, Repr

/-- An idle engine whose host drives nothing. -/
def Port.idle {κ ρ : Type} : Port κ ρ := ⟨.empty, none, false⟩

/-- A block of `nEnc` encoders and `nDec` decoders right after reset: every slot `Empty`, nothing else to initialise (R34). The
host's side starts with nothing (logs 10, 14). -/
def State.resetOf (nEnc nDec : Nat) : State where
  rst := false
  encs := List.replicate nEnc Port.idle
  decs := List.replicate nDec Port.idle
  received := []
  hostMem := []
  hostPos := 0
  script := []
  tick := 0

/-- The machine right after reset, with the default numbers of engines (R34, D12). -/
def State.reset : State := State.resetOf Config.nEnc Config.nDec

end Sys2Proof.Machine
end

