-- ==== Sys2Proof/Machine/Ports.lean ====
section
/-! DEFINITION. The output signals of an engine, as functions of its slot, of `rst` and of what the host drives (R25, R28, R31),
and the conditions under which its two steps are enabled (R26, R27). -/

namespace Sys2Proof.Machine

/-- The slot is `Empty`. -/
def Slot.isEmpty {ρ : Type} : Slot ρ → Bool
  | .empty => true
  | .full _ => false

/-- `req_ready`: "asserted iff the slot is Empty and `rst` is not asserted" (R25, R28). -/
def Port.reqReady {κ ρ : Type} (rst : Bool) (p : Port κ ρ) : Bool := !rst && p.slot.isEmpty

/-- `rsp_valid`: the slot is Full, and its response counts as computed, since the model carries no time (R25, R210, R230, log 6). -/
def Port.rspValid {κ ρ : Type} (rst : Bool) (p : Port κ ρ) : Bool := !rst && !p.slot.isEmpty

/-- The response signals: those of the slot while `rsp_valid` is asserted; not exposed otherwise (R27, R31, log 8). -/
def Port.rspSignals {κ ρ : Type} (rst : Bool) (p : Port κ ρ) : Option ρ :=
  match p.slot with
  | .empty => none
  | .full r => if rst then none else some r

/-- The request that the accept step samples: one is offered and `req_ready` is asserted (R26). -/
def Port.sampled {κ ρ : Type} (rst : Bool) (p : Port κ ρ) : Option κ := if p.reqReady rst then p.req else none

/-- The response that the deliver step hands over: `rsp_valid` and `rsp_ready` are both asserted (R27). -/
def Port.taken {κ ρ : Type} (rst : Bool) (p : Port κ ρ) : Option ρ := if p.rspReady then p.rspSignals rst else none

/-- One of the two steps of the engine is enabled. -/
def Port.enabled {κ ρ : Type} (rst : Bool) (p : Port κ ρ) : Bool := (p.sampled rst).isSome || (p.taken rst).isSome

/-- The host may put `q` on the request port: nothing is pending, or the same payload is (it "must keep" it, R222), or `rst` is
asserted (log 11). DESIGN CHOICE, log 22: on a decoder's port the payload compared is the whole `Offer`, the model's reading tag
included, so the same window under the other tag counts as a changed offer although `dec_req_data` is unchanged. -/
def Port.mayOffer {κ ρ : Type} [DecidableEq κ] (rst : Bool) (p : Port κ ρ) (q : κ) : Bool :=
  rst || decide (p.req = none) || decide (p.req = some q)

/-- The host may deassert `req_valid`: nothing is pending, or `rst` is asserted (R222, log 11). -/
def Port.mayWithdraw {κ ρ : Type} (rst : Bool) (p : Port κ ρ) : Bool := rst || p.req.isNone

/-- The length as the document's type, `u8` (R30, C7). -/
def lenU8 (n : Len) : Byte := n.setWidth 8

/-! ### The signals of the block, by instance -/

/-- `enc_req_ready` of encoder `i`. -/
def State.encReqReady (s : State) (i : Nat) : Bool := (s.encs[i]?).elim false (Port.reqReady s.rst)
/-- `enc_rsp_valid` of encoder `i`. -/
def State.encRspValid (s : State) (i : Nat) : Bool := (s.encs[i]?).elim false (Port.rspValid s.rst)
/-- `enc_rsp_data`, `enc_rsp_strb` and `enc_rsp_len` of encoder `i`, while its `enc_rsp_valid` is asserted. -/
def State.encRspSignals (s : State) (i : Nat) : Option EncRsp := (s.encs[i]?).bind (Port.rspSignals s.rst)
/-- `dec_req_ready` of decoder `i`. -/
def State.decReqReady (s : State) (i : Nat) : Bool := (s.decs[i]?).elim false (Port.reqReady s.rst)
/-- `dec_rsp_valid` of decoder `i`. -/
def State.decRspValid (s : State) (i : Nat) : Bool := (s.decs[i]?).elim false (Port.rspValid s.rst)
/-- `dec_rsp_value` and `dec_rsp_len` of decoder `i`, while its `dec_rsp_valid` is asserted. -/
def State.decRspSignals (s : State) (i : Nat) : Option DecRsp := (s.decs[i]?).bind (Port.rspSignals s.rst)

end Sys2Proof.Machine
end

