-- ==== Sys2Proof/Machine/Ops.lean ====
section
/-! DEFINITION. The named operations: byte lanes of a window, the host's memory, and the accept, deliver and reset steps. There is
no operation that takes an exception: the block has none (R180, R186). -/

namespace Sys2Proof.Machine

/-! ### Byte lanes (R40, R44, R45, R47) -/

/-- Lane `k` of a window, `0 ≤ k ≤ 8`: bits `8k+7 : 8k` (R47). -/
def lane (w : Window) (k : Nat) : Byte := w.extractLsb' (8 * k) 8

/-- A window with lane `k` replaced. -/
def setLane (w : Window) (k : Nat) (b : Byte) : Window :=
  (w &&& ~~~((0xFF#72) <<< (8 * k))) ||| (b.setWidth 72 <<< (8 * k))

/-- `MemRead(k, 1)`: the byte at offset `k` of the decoder's sampled window (R44). It cannot fault. -/
def memRead (w : Window) (k : Nat) : Byte := lane w k

/-- What the encoder has written so far: lanes and strobes. -/
structure OutWindow where
  data : Window
  strb : Strobe
  deriving DecidableEq, Repr

/-- A response starts as `data = 0, strb = 0` (R45). -/
def OutWindow.blank : OutWindow := ⟨0, 0⟩

/-- `MemWrite(k, 1, b)`: lane `k` receives `b`, strobe `k` is set (R45). It cannot fault. -/
def memWrite (k : Nat) (b : Byte) (o : OutWindow) : OutWindow :=
  ⟨setLane o.data k b, o.strb ||| (1#9 <<< k)⟩

/-- `return len = n`: the response record (R72). -/
def OutWindow.finish (o : OutWindow) (n : Nat) : EncRsp := ⟨o.data, o.strb, BitVec.ofNat 4 n⟩

/-! ### The host's memory (R32, R50) -/

/-- The addresses of a memory above a bound rise strictly. -/
def Memory.risesFrom : Nat → Memory → Bool
  | _, [] => true
  | lo, (a, _) :: m => decide (lo ≤ a) && Memory.risesFrom (a + 1) m

/-- The canonical form: addresses strictly rising. An unlisted address has no value, so no entry can equal it (log 13). -/
def Memory.wf (m : Memory) : Bool := Memory.risesFrom 0 m

/-- The byte at an address, if the host has written it. -/
def Memory.read : Memory → Nat → Option Byte
  | [], _ => none
  | (a, b) :: m, x => if x = a then some b else Memory.read m x

/-- Write one byte, keeping the canonical form. -/
def Memory.write : Memory → Nat → Byte → Memory
  | [], x, v => [(x, v)]
  | (a, b) :: m, x, v =>
    if x < a then (x, v) :: (a, b) :: m
    else if x = a then (a, v) :: m
    else (a, b) :: Memory.write m x v

/-- The `n` bytes from an address on, or the first address among them that nothing has written. -/
def Memory.readBytes (m : Memory) : Nat → Nat → Except Nat (List Byte)
  | _, 0 => .ok []
  | x, n + 1 =>
    match Memory.read m x with
    | none => .error x
    | some b => (Memory.readBytes m (x + 1) n).map (b :: ·)

/-- Copy the lanes of a response that `keep` names, of the `n` lanes from `k` on, to offsets of a buffer at `base`. -/
def Memory.copyLanes (m : Memory) (base : Nat) (data : Window) (keep : Nat → Bool) : Nat → Nat → Memory
  | _, 0 => m
  | k, n + 1 =>
    Memory.copyLanes (if keep k then Memory.write m (base + k) (lane data k) else m) base data keep (k + 1) n

/-! ### Engines of a state -/

/-- The block has this engine (R192). -/
def State.hasEngine (s : State) : EngineId → Bool
  | .enc i => decide (i < s.encs.length)
  | .dec i => decide (i < s.decs.length)

/-- Replace encoder `i`. -/
def State.setEnc (s : State) (i : Nat) (p : EncPort) : State := { s with encs := s.encs.set i p }

/-- Replace decoder `i`. -/
def State.setDec (s : State) (i : Nat) (p : DecPort) : State := { s with decs := s.decs.set i p }

/-- The outcome type of the machine. -/
abbrev Result := Host.Outcome State Fault Refusal

/-! ### Accept (R26) -/

/-- The slot part of the accept step: `Empty` becomes `Full(r)` when `req_ready` is asserted; otherwise the request is not
accepted, "held, not dropped and not an error" (D19), and nothing changes. -/
def Port.accept {κ ρ : Type} (rst : Bool) (r : ρ) (p : Port κ ρ) : Port κ ρ :=
  if p.reqReady rst then { p with slot := .full r } else p

/-- Encoder `i` accepts a request whose response is `r`: only its slot is written (R26, R100). -/
def acceptEnc (i : Nat) (r : EncRsp) (s : State) : Result :=
  match s.encs[i]? with
  | none => .refused (.noEngine (.enc i))
  | some p => .next (s.setEnc i (p.accept s.rst r))

/-- Decoder `i` accepts a request whose response is `r` (R26, R130). -/
def acceptDec (i : Nat) (r : DecRsp) (s : State) : Result :=
  match s.decs[i]? with
  | none => .refused (.noEngine (.dec i))
  | some p => .next (s.setDec i (p.accept s.rst r))

/-- The transfer of a request ends the host's offer of it (D2, log 18). -/
def State.dropOffer (s : State) : EngineId → State
  | .enc i => { s with encs := s.encs.modify i fun p => { p with req := none } }
  | .dec i => { s with decs := s.decs.modify i fun p => { p with req := none } }

/-! ### Deliver (R27) -/

/-- What an engine hands over on this edge, if its deliver step is enabled. -/
def deliverable (s : State) : EngineId → Option Response
  | .enc i => ((s.encs[i]?).bind (Port.taken s.rst)).map (.enc i)
  | .dec i => ((s.decs[i]?).bind (Port.taken s.rst)).map (.dec i)

/-- The slot of an engine becomes `Empty`. -/
def State.clearSlot (s : State) : EngineId → State
  | .enc i => { s with encs := s.encs.modify i fun p => { p with slot := .empty } }
  | .dec i => { s with decs := s.decs.modify i fun p => { p with slot := .empty } }

/-- The deliver step: the host receives exactly `r`, the slot becomes `Empty` (R27). -/
def deliver (e : EngineId) (r : Response) (s : State) : State :=
  { s.clearSlot e with received := r :: s.received }

/-! ### Reset (R210, R211) -/

/-- Every slot becomes `Empty`; a transaction in flight is discarded and leaves nothing. What the host drives stays (log 11). -/
def State.clearAllSlots (s : State) : State :=
  { s with encs := s.encs.map fun p => { p with slot := .empty }, decs := s.decs.map fun p => { p with slot := .empty } }

/-- `rst` is asserted (all slots forced `Empty`) or released (R210, R212). -/
def driveReset (asserted : Bool) (s : State) : State :=
  if asserted then { s.clearAllSlots with rst := true } else { s with rst := false }

/-! ### The host's signals (R222) -/

/-- The host offers a value to encoder `i` and holds it. -/
def offerEnc (i : Nat) (v : Value) (s : State) : Result :=
  match s.encs[i]? with
  | none => .refused (.noEngine (.enc i))
  | some p => if p.mayOffer s.rst v then .next (s.setEnc i { p with req := some v }) else .refused (.changedOffer (.enc i))

/-- The host offers a window to decoder `i` and holds it. -/
def offerDec (i : Nat) (o : Offer) (s : State) : Result :=
  match s.decs[i]? with
  | none => .refused (.noEngine (.dec i))
  | some p => if p.mayOffer s.rst o then .next (s.setDec i { p with req := some o }) else .refused (.changedOffer (.dec i))

/-- The host deasserts `req_valid` of an engine. -/
def withdraw (e : EngineId) (s : State) : Result :=
  match e with
  | .enc i =>
    match s.encs[i]? with
    | none => .refused (.noEngine e)
    | some p => if p.mayWithdraw s.rst then .next (s.setEnc i { p with req := none }) else .refused (.withdrawnOffer e)
  | .dec i =>
    match s.decs[i]? with
    | none => .refused (.noEngine e)
    | some p => if p.mayWithdraw s.rst then .next (s.setDec i { p with req := none }) else .refused (.withdrawnOffer e)

/-- The host drives `rsp_ready` of an engine, "at any time, before or after" `rsp_valid` (R222). -/
def setReady (e : EngineId) (ready : Bool) (s : State) : Result :=
  match e with
  | .enc i =>
    match s.encs[i]? with
    | none => .refused (.noEngine e)
    | some p => .next (s.setEnc i { p with rspReady := ready })
  | .dec i =>
    match s.decs[i]? with
    | none => .refused (.noEngine e)
    | some p => .next (s.setDec i { p with rspReady := ready })

/-! ### The host's buffers (R41, R42, R52, R223 to R225) -/

/-- The last response received from encoder `i`. -/
def lastEnc (i : Nat) : List Response → Option EncRsp
  | [] => none
  | .enc j r :: rs => if j = i then some r else lastEnc i rs
  | .dec _ _ :: rs => lastEnc i rs

/-- The last response received from decoder `i`. -/
def lastDec (i : Nat) : List Response → Option DecRsp
  | [] => none
  | .dec j r :: rs => if j = i then some r else lastDec i rs
  | .enc _ _ :: rs => lastDec i rs

/-- The host copies lanes of the last response of encoder `i` to its buffer of `room` bytes at `base`: the strobed lanes (R41), or
all nine (`all`, R111, R223). A buffer of fewer than nine bytes is refused (R58, R182, log 15). -/
def storeRsp (all : Bool) (i base room : Nat) (s : State) : Result :=
  if room < Config.maxLen then .refused (.shortBuffer room)
  else
    match lastEnc i s.received with
    | none => .refused (.noResponse (.enc i))
    | some r => .next { s with hostMem := Memory.copyLanes s.hostMem base r.data (fun k => all || r.strb.getLsbD k) 0 Config.maxLen }

/-- The host offers to decoder `i` the nine bytes at its position: the real bytes before `fin`, then pad (R42, R52, R225). Fewer
than nine bytes in all are refused (R58, R182). -/
def offerStream (i : Nat) (reading : Reading) (fin : Nat) (pad : List Byte) (s : State) : Result :=
  match Memory.readBytes s.hostMem s.hostPos (min (fin - s.hostPos) Config.maxLen) with
  | .error x => .refused (.unwrittenByte x)
  | .ok real =>
    if (real ++ pad).length < Config.maxLen then .refused (.shortBuffer (real ++ pad).length)
    else offerDec i ⟨packWindow (real ++ pad), reading⟩ s

/-- `p <- p + dec_rsp_len` (R52). -/
def advance (i : Nat) (s : State) : Result :=
  match lastDec i s.received with
  | none => .refused (.noResponse (.dec i))
  | some r => .next { s with hostPos := s.hostPos + r.len.toNat }

end Sys2Proof.Machine
end

