-- ==== Sys2Proof/Machine/Flags.lean ====
section
/-! DEFINITION. The block has no status flags (R22). What stands here is the flag of the data: the continuation flag, bit 7 of a
byte (R75), and the strobes of a response (R72). -/

namespace Sys2Proof.Machine

/-- The continuation flag of a byte: set means that more payload bytes follow (R75). -/
def contFlag (b : Byte) : Bool := b.getLsbD 7

/-- The lowest seven bits of a value under a set flag: `(w & 0x7F) | 0x80` (R100). -/
def flaggedGroup (w : Value) : Byte := (w.setWidth 8 &&& Config.payloadMask) ||| Config.flag

/-- The byte with its flag cleared: `b & 0x7F` (R100, R107). -/
def clearFlag (b : Byte) : Byte := b &&& Config.payloadMask

/-- `strb = 2^len - 1` (R72, R109). -/
def strobes (n : Nat) : Strobe := BitVec.ofNat 9 (2 ^ n - 1)

end Sys2Proof.Machine
end

