-- ==== Sys2Proof/Machine/Operands.lean ====
section
/-! DEFINITION. Operand assembly (R85): the value of each wire format from its payload groups. Payloads are unsigned and
zero-extended. -/

namespace Sys2Proof.Machine

/-- L1: 7 payload bits (R76). -/
def valueL1 (a : Group) : Value := a.setWidth 64
/-- L2: 14 payload bits (R77). -/
def valueL2 (a b : Group) : Value := (a ++ b).setWidth 64
/-- L3: 21 payload bits (R78). -/
def valueL3 (a b c : Group) : Value := (a ++ b ++ c).setWidth 64
/-- L4: 28 payload bits (R79). -/
def valueL4 (a b c d : Group) : Value := (a ++ b ++ c ++ d).setWidth 64
/-- L5: 35 payload bits (R80). -/
def valueL5 (a b c d e : Group) : Value := (a ++ b ++ c ++ d ++ e).setWidth 64
/-- L6: 42 payload bits (R81). -/
def valueL6 (a b c d e f : Group) : Value := (a ++ b ++ c ++ d ++ e ++ f).setWidth 64
/-- L7: 49 payload bits (R82). -/
def valueL7 (a b c d e f g : Group) : Value := (a ++ b ++ c ++ d ++ e ++ f ++ g).setWidth 64
/-- L8: 56 payload bits (R83). -/
def valueL8 (a b c d e f g h : Group) : Value := (a ++ b ++ c ++ d ++ e ++ f ++ g ++ h).setWidth 64
/-- L9: eight groups and a full byte, exactly 64 bits (R84). -/
def valueL9 (a b c d e f g h : Group) (i : Byte) : Value := (a ++ b ++ c ++ d ++ e ++ f ++ g ++ h ++ i).setWidth 64

/-- The response of a decoder: value and bytes consumed (R74). -/
def decRsp (value : Value) (n : Nat) : DecRsp := ⟨value, BitVec.ofNat 4 n⟩

end Sys2Proof.Machine
end

