-- ==== Sys2Proof/Machine/Decoder.lean ====
section
/-! DEFINITION. The decoder, operation VDEC: the loop of R130, byte at a time (D15). -/

namespace Sys2Proof.Machine

/-- The loop of R130 from iteration `i` on, over the bytes still to be read at offsets `i` to 7; `last` is the byte at offset 8,
which is taken whole after a shift by 8 (R141). -/
def decodeLoop (last : Byte) : Nat → Value → List Byte → DecRsp
  | i, acc, [] => decRsp ((acc <<< 8) ||| last.setWidth 64) (i + 1)
  | i, acc, b :: bs =>
    let acc := (acc <<< 7) ||| (clearFlag b).setWidth 64
    if contFlag b then decodeLoop last (i + 1) acc bs else decRsp acc (i + 1)

/-- The bytes at offsets 0 to 7 of a window. -/
def flagBytes (w : Window) : List Byte := (List.range 8).map (memRead w)

/-- `Decode(B)` (R130). -/
def vdecode (w : Window) : DecRsp := decodeLoop (memRead w 8) 0 0 (flagBytes w)

/-- `VDEC` on decoder `n` (R130): the accept step with the response `Decode(B)`. -/
def execVdec (n : Nat) (w : Window) (s : State) : Result := acceptDec n (vdecode w) s

end Sys2Proof.Machine
end

