-- ==== Sys2Proof/Machine/Encoder.lean ====
section
/-! DEFINITION. The encoder, operation VENC: the pseudocode of R100 with its four paths (R101 to R104). -/

namespace Sys2Proof.Machine

/-- R101: offset 0 receives the byte equal to `v`. -/
def encodeOne (v : Value) : EncRsp := (memWrite 0 (v.setWidth 8) OutWindow.blank).finish 1

/-- R102: the high group flagged, then the low group. -/
def encodeTwo (v : Value) : EncRsp :=
  (memWrite 1 (clearFlag (v.setWidth 8)) (memWrite 0 (flaggedGroup (v >>> 7)) OutWindow.blank)).finish 2

/-- The loop of R103: offsets `n-1` down to 0 receive the groups of `w` from the lowest up, each flagged. -/
def fillFlagged : Nat → Value → OutWindow → OutWindow
  | 0, _, o => o
  | i + 1, w, o => fillFlagged i (w >>> 7) (memWrite i (flaggedGroup w) o)

/-- R103: offset 8 receives `v[7:0]` whole; offsets 7 down to 0 the groups of `v >> 8`. -/
def encodeNine (v : Value) : EncRsp := (fillFlagged 8 (v >>> 8) (memWrite 8 (v.setWidth 8) OutWindow.blank)).finish 9

/-- The `repeat` loop of R100: the groups of `w` from the lowest up, each flagged, until nothing remains. `fuel` bounds the
iterations; eight suffice below 2^56 (R108). -/
def lowGroups : Nat → Value → List Byte
  | 0, _ => []
  | fuel + 1, w => flaggedGroup w :: (if w >>> 7 = 0 then [] else lowGroups fuel (w >>> 7))

/-- `T[0] <- T[0] & 0x7F`: the LOWEST group loses its flag (R107, C1). -/
def clearLowest : List Byte → List Byte
  | [] => []
  | b :: bs => clearFlag b :: bs

/-- Write bytes at successive offsets from `j` on. -/
def writeBytes : Nat → List Byte → OutWindow → OutWindow
  | _, [], o => o
  | j, b :: bs, o => writeBytes (j + 1) bs (memWrite j b o)

/-- R104: the groups, the lowest without its flag, most significant first. -/
def encodeGeneral (v : Value) : EncRsp :=
  let groups := clearLowest (lowGroups 8 v)
  (writeBytes 0 groups.reverse OutWindow.blank).finish groups.length

/-- `Encode(v)` (R100). -/
def vencode (v : Value) : EncRsp :=
  if v ≤ Config.t1 then encodeOne v
  else if v ≤ Config.t2 then encodeTwo v
  else if v.extractLsb' 56 8 ≠ 0 then encodeNine v
  else encodeGeneral v

/-- `VENC` on encoder `e` (R100): the accept step with the response `Encode(v)`. -/
def execVenc (e : Nat) (v : Value) (s : State) : Result := acceptEnc e (vencode v) s

end Sys2Proof.Machine
end

