-- ==== Sys2Proof/Machine/Formats.lean ====
section
/-! DEFINITION. The wire formats as operands of the decoder: a window already read by its row (R76 to R84). The response is that of
R130, here in the closed form of R85 and R132 to R137; pad has no effect (R138). -/

namespace Sys2Proof.Machine

/-- `VARINT.L1` (R76, R132). -/
def execVarintL1 (n : Nat) (a : Group) (s : State) : Result := acceptDec n (decRsp (valueL1 a) 1) s
/-- `VARINT.L2` (R77, R133). -/
def execVarintL2 (n : Nat) (a b : Group) (s : State) : Result := acceptDec n (decRsp (valueL2 a b) 2) s
/-- `VARINT.L3` (R78, R134). -/
def execVarintL3 (n : Nat) (a b c : Group) (s : State) : Result := acceptDec n (decRsp (valueL3 a b c) 3) s
/-- `VARINT.L4` (R79, R135). -/
def execVarintL4 (n : Nat) (a b c d : Group) (s : State) : Result := acceptDec n (decRsp (valueL4 a b c d) 4) s
/-- `VARINT.L5` (R80, R135). -/
def execVarintL5 (n : Nat) (a b c d e : Group) (s : State) : Result := acceptDec n (decRsp (valueL5 a b c d e) 5) s
/-- `VARINT.L6` (R81, R135). -/
def execVarintL6 (n : Nat) (a b c d e f : Group) (s : State) : Result := acceptDec n (decRsp (valueL6 a b c d e f) 6) s
/-- `VARINT.L7` (R82, R135). -/
def execVarintL7 (n : Nat) (a b c d e f g : Group) (s : State) : Result := acceptDec n (decRsp (valueL7 a b c d e f g) 7) s
/-- `VARINT.L8` (R83, R135). -/
def execVarintL8 (n : Nat) (a b c d e f g h : Group) (s : State) : Result := acceptDec n (decRsp (valueL8 a b c d e f g h) 8) s
/-- `VARINT.L9` (R84, R137). -/
def execVarintL9 (n : Nat) (a b c d e f g h : Group) (i : Byte) (s : State) : Result :=
  acceptDec n (decRsp (valueL9 a b c d e f g h i) 9) s

end Sys2Proof.Machine
end

