-- ==== Sys2Proof/Machine/Dispatch.lean ====
section
/-! DEFINITION. One arm per row of the opcode table. -/

namespace Sys2Proof.Machine

/-- What an instruction does: the accept step of the engine it is addressed to (R26, R100, R130). -/
def exec (i : Instr) (s : State) : Host.Outcome State Fault Refusal :=
  match i with
  | .venc e v => Sys2Proof.Machine.execVenc e v s
  | .vdec n w => Sys2Proof.Machine.execVdec n w s
  | .varintL1 n a _ => Sys2Proof.Machine.execVarintL1 n a s
  | .varintL2 n a b _ => Sys2Proof.Machine.execVarintL2 n a b s
  | .varintL3 n a b c _ => Sys2Proof.Machine.execVarintL3 n a b c s
  | .varintL4 n a b c d _ => Sys2Proof.Machine.execVarintL4 n a b c d s
  | .varintL5 n a b c d e _ => Sys2Proof.Machine.execVarintL5 n a b c d e s
  | .varintL6 n a b c d e f _ => Sys2Proof.Machine.execVarintL6 n a b c d e f s
  | .varintL7 n a b c d e f g _ => Sys2Proof.Machine.execVarintL7 n a b c d e f g s
  | .varintL8 n a b c d e f g h _ => Sys2Proof.Machine.execVarintL8 n a b c d e f g h s
  | .varintL9 n a b c d e f g h l => Sys2Proof.Machine.execVarintL9 n a b c d e f g h l s

end Sys2Proof.Machine
end

