-- ==== Sys2Proof/Machine/Events.lean ====
section
/-! DEFINITION. The moves: an engine's edge (fetch, decode, exec, or deliver), the host's moves, and the choice among enabled
engines when no script decides. -/

namespace Sys2Proof.Machine

/-- The request an engine samples on this edge, if its accept step is enabled (R26, R46). -/
def fetch (s : State) : EngineId → Option Request
  | .enc i => ((s.encs[i]?).bind (Port.sampled s.rst)).map (.enc i)
  | .dec i => ((s.decs[i]?).bind (Port.sampled s.rst)).map fun o => .dec i o.reading o.window

/-- A rising edge for engine `e`. Deliver if the host takes a valid response (R27); else accept if a request is offered and the
slot is empty (R26): the instruction that its record decodes to runs, and the offer ends; else nothing changes. The two steps
are never enabled together (R185). -/
def engineStep (e : EngineId) (s : State) : Result :=
  if s.hasEngine e then
    match deliverable s e with
    | some r => .next (deliver e r s)
    | none =>
      match fetch s e with
      | some q => exec (decode q) (s.dropOffer e)
      | none => .next s
  else .refused (.noEngine e)

/-- One move of the script. -/
def runEvent (ev : Event) (s : State) : Result :=
  match ev with
  | .setRst asserted => .next (driveReset asserted s)
  | .offerEnc i v => offerEnc i v s
  | .offerDec i o => offerDec i o s
  | .withdraw e => withdraw e s
  | .setReady e ready => setReady e ready s
  | .engine e => engineStep e s
  | .storeStrobed i base room => storeRsp false i base room s
  | .storeAllLanes i base room => storeRsp true i base room s
  | .offerStream i reading fin pad => offerStream i reading fin pad s
  | .advance i => advance i s
  | .seek p => .next { s with hostPos := p }
  | .poke a b => .next { s with hostMem := Memory.write s.hostMem a b }

/-- The move offers a request (R222: "offer VENC", "offer VDEC"); every other move of the host, and every edge, offers none. -/
def isRequest : Event → Bool
  | .offerEnc _ _ => true
  | .offerDec _ _ => true
  | .offerStream _ _ _ _ => true
  | .setRst _ => false
  | .withdraw _ => false
  | .setReady _ _ => false
  | .engine _ => false
  | .storeStrobed _ _ _ => false
  | .storeAllLanes _ _ _ => false
  | .advance _ => false
  | .seek _ => false
  | .poke _ _ => false

/-- The engines of one kind, from `first` on, with a step enabled. -/
def enabledFrom {κ ρ : Type} (rst : Bool) (name : Nat → EngineId) : Nat → List (Port κ ρ) → List EngineId
  | _, [] => []
  | first, p :: ps =>
    if p.enabled rst then name first :: enabledFrom rst name (first + 1) ps else enabledFrom rst name (first + 1) ps

/-- The engines with a step enabled. -/
def enabledEngines (s : State) : List EngineId :=
  enabledFrom s.rst EngineId.enc 0 s.encs ++ enabledFrom s.rst EngineId.dec 0 s.decs

/-- One of several engines, by a free value: transactions on different engines are unordered (R53 (c), log 4). -/
def pick (tick : Nat) : List EngineId → Option EngineId
  | [] => none
  | [e] => some e
  | es => es[Config.arbiter tick % es.length]?

/-- With no move scripted, some enabled engine moves (R230: an enabled deliver step is eventually taken), and nothing changes when
none is enabled (R232, U11). -/
def drainStep (s : State) : Result :=
  match pick s.tick (enabledEngines s) with
  | none => .next s
  | some e => engineStep e { s with tick := s.tick + 1 }

/-! ### Placing a request where the next step takes it (log 17) -/

/-- Replace instance `i`, or add it after the last. -/
def placeAt {α : Type} (xs : List α) (i : Nat) (x : α) : List α := if i < xs.length then xs.set i x else xs ++ [x]

/-- The engine is idle and its host offers `q`; what else the host drives stays. -/
def Port.offering {κ ρ : Type} (q : κ) (p : Option (Port κ ρ)) : Port κ ρ :=
  { p.getD Port.idle with slot := .empty, req := some q }

/-- The state whose next step accepts the request: `rst` released, the engine idle, the request offered, its edge next. -/
def placeRequest (q : Request) (s : State) : State :=
  match q with
  | .enc i v =>
    { s with rst := false, encs := placeAt s.encs i (Port.offering v s.encs[i]?), script := .engine (.enc i) :: s.script }
  | .dec i reading w =>
    { s with rst := false, decs := placeAt s.decs i (Port.offering ⟨w, reading⟩ s.decs[i]?), script := .engine (.dec i) :: s.script }

/-- The state with a table word placed for the next step. -/
def placeTableWord (nbits w : Nat) (s : State) : State :=
  match tableRequest nbits w with
  | .ok q => placeRequest q s
  | .error _ => s

end Sys2Proof.Machine
end

