-- ==== Sys2Proof/Machine/Step.lean ====
section
/-! DEFINITION. One step of the machine: the next scripted move, or an enabled engine when no move is scripted. -/

namespace Sys2Proof.Machine

/-- One step (R232: a run is a sequence of accept and deliver steps, and possibly reset events). -/
def step (s : State) : Host.Outcome State Fault Refusal :=
  match s.script with
  | [] => drainStep s
  | ev :: rest => runEvent ev { s with script := rest }

/-- The state with a table word placed where the next step fetches (log 17). -/
def State.withFetchWord (s : State) (nbits w : Nat) : State := placeTableWord nbits w s

end Sys2Proof.Machine
end

