-- ==== Sys2Proof/Machine/ClosedForm.lean ====
section
/-! DEFINITION. The closed forms of the two functions, as R85, R87, R88, R100 and R130 give them beside the pseudocode. The machine
runs the pseudocode; statements compare the two. -/

namespace Sys2Proof.Machine

/-- `Len(v)`, the table of R88. -/
def varintLen (v : Value) : Nat :=
  if v.toNat ≤ 0x7F then 1
  else if v.toNat ≤ 0x3FFF then 2
  else if v.toNat ≤ 0x1FFFFF then 3
  else if v.toNat ≤ 0xFFFFFFF then 4
  else if v.toNat ≤ 0x7FFFFFFFF then 5
  else if v.toNat ≤ 0x3FFFFFFFFFF then 6
  else if v.toNat ≤ 0x1FFFFFFFFFFFF then 7
  else if v.toNat ≤ 0xFFFFFFFFFFFFFF then 8
  else 9

/-- `B[j]` of the encoding of `v` in `n` bytes (R85). -/
def closedByte (n : Nat) (v : Value) (j : Nat) : Byte :=
  if n = 9 then
    if j = 8 then v.extractLsb' 0 8 else flaggedByte (v.extractLsb' (57 - 7 * j) 7)
  else if j + 1 < n then flaggedByte (v.extractLsb' (7 * (n - 1 - j)) 7) else terminalByte (v.extractLsb' 0 7)

/-- The closed form of `Encode(v)` (R100). -/
def closedEncode (v : Value) : EncRsp :=
  ⟨packWindow ((List.range (varintLen v)).map (closedByte (varintLen v) v)), strobes (varintLen v), BitVec.ofNat 4 (varintLen v)⟩

/-- One more than the offset of the first byte whose flag is clear, counting from `i`; past the last byte where none is. -/
def firstClear : Nat → List Byte → Nat
  | i, [] => i + 1
  | i, b :: bs => if contFlag b then firstClear (i + 1) bs else i + 1

/-- The length of the encoding at the head of a window: decided by the flags of the bytes at offsets 0 to 7 (R87). -/
def windowLen (w : Window) : Nat := firstClear 0 (flagBytes w)

/-- The value a window of `n` bytes spells, as an exact number: the sums of R85, R135 and R137. -/
def closedValue (n : Nat) (w : Window) : Nat :=
  if n = 9 then ((List.range 8).map fun k => (groupAt w k).toNat * 2 ^ (57 - 7 * k)).sum + (lane w 8).toNat
  else ((List.range n).map fun k => (groupAt w k).toNat * 2 ^ (7 * (n - 1 - k))).sum

/-- The closed form of `Decode(B)` (R130). -/
def closedDecode (w : Window) : DecRsp :=
  ⟨BitVec.ofNat 64 (closedValue (windowLen w) w), BitVec.ofNat 4 (windowLen w)⟩

end Sys2Proof.Machine
end

