-- ==== Sys2Proof/Safety.lean ====
section
/-! DEFINITION. The terms claims use: well-formed responses, windows made from responses, the invariant, the end of a run. -/

namespace Sys2Proof.Machine

/-! ### Responses -/

/-- The constraints that always hold of an encoder's response (R72). -/
structure EncRsp.Conforms (r : EncRsp) : Prop where
  /-- `1 <= len <= 9` -/
  lenRange : 1 ≤ r.len.toNat ∧ r.len.toNat ≤ 9
  /-- `strb = 2^len - 1` -/
  strobed : r.strb = strobes r.len.toNat
  /-- lanes 0 to `len`-1 hold an encoding of format L`len` -/
  inFormat : formatOf r.data = r.len.toNat
  /-- lanes `len` to 8 are 0x00 -/
  unstrobed : ∀ k, r.len.toNat ≤ k → k < 9 → lane r.data k = 0

/-- The constraints that always hold of a decoder's response (R74). -/
structure DecRsp.Conforms (r : DecRsp) : Prop where
  /-- `1 <= len <= 9` -/
  lenRange : 1 ≤ r.len.toNat ∧ r.len.toNat ≤ 9
  /-- if `len <= 8` then `value < 2^(7*len)` -/
  bounded : r.len.toNat ≤ 8 → r.value.toNat < 2 ^ (7 * r.len.toNat)

/-- The window whose first bytes are the strobed bytes of a response and whose other bytes are those of `pad`: `Win(bytes, pad)`
of `42_codec_laws.md`. -/
def winOf (r : EncRsp) (pad : Window) : Window :=
  (List.range 9).foldl (fun w k => if r.strb.getLsbD k then setLane w k (lane r.data k) else w) pad

/-- The window is overlong: `n > Len(value)` (R86). -/
def Overlong (w : Window) : Prop := varintLen (vdecode w).value < (vdecode w).len.toNat

/-! ### Instructions and engines -/

/-- The engine whose request port an instruction arrives on (R70). -/
def target : Instr → EngineId
  | .venc e _ => .enc e
  | .vdec n _ => .dec n
  | .varintL1 n _ _ => .dec n
  | .varintL2 n _ _ _ => .dec n
  | .varintL3 n _ _ _ _ => .dec n
  | .varintL4 n _ _ _ _ _ => .dec n
  | .varintL5 n _ _ _ _ _ _ => .dec n
  | .varintL6 n _ _ _ _ _ _ _ => .dec n
  | .varintL7 n _ _ _ _ _ _ _ _ => .dec n
  | .varintL8 n _ _ _ _ _ _ _ _ _ => .dec n
  | .varintL9 n _ _ _ _ _ _ _ _ _ => .dec n

/-- Engine `e` is present and its slot is `Empty`. -/
def State.idle (s : State) : EngineId → Prop
  | .enc i => ∃ p, s.encs[i]? = some p ∧ p.slot = .empty
  | .dec i => ∃ p, s.decs[i]? = some p ∧ p.slot = .empty

/-- Engine `e` is present and its slot is `Full`. -/
def State.busy (s : State) : EngineId → Prop
  | .enc i => ∃ p r, s.encs[i]? = some p ∧ p.slot = .full r
  | .dec i => ∃ p r, s.decs[i]? = some p ∧ p.slot = .full r

/-! ### The invariant -/

/-- Every slot is `Empty`. -/
abbrev State.allEmpty (s : State) : Prop :=
  (∀ p ∈ s.encs, p.slot = .empty) ∧ (∀ p ∈ s.decs, p.slot = .empty)

/-- A response is one that the codec gives to some request (R24: "a function of the accepted request alone"). -/
def Response.FromCodec : Response → Prop
  | .enc _ r => ∃ v, r = vencode v
  | .dec _ r => ∃ w, r = vdecode w

/-- What every step keeps. -/
structure Inv (s : State) : Prop where
  /-- while `rst` is asserted every slot is `Empty` (R210) -/
  emptyInReset : s.rst = true → s.allEmpty
  /-- a Full encoder slot holds the response to some value -/
  encSlots : ∀ p ∈ s.encs, ∀ r, p.slot = .full r → ∃ v, r = vencode v
  /-- a Full decoder slot holds the response to some window -/
  decSlots : ∀ p ∈ s.decs, ∀ r, p.slot = .full r → ∃ w, r = vdecode w
  /-- the host has received nothing else -/
  delivered : ∀ x ∈ s.received, x.FromCodec
  /-- the host's memory is in canonical form -/
  memory : Memory.wf s.hostMem = true

/-! ### The end of a run -/

/-- The host has no further request to offer: no request stands on a port, accepted by no engine yet, and no move to come offers
one (log 21). -/
abbrev State.noRequestLeft (s : State) : Prop :=
  (∀ p ∈ s.encs, p.req = none) ∧ (∀ p ∈ s.decs, p.req = none) ∧ (∀ ev ∈ s.script, isRequest ev = false)

/-- A run "is over when the host has no further request to offer and every slot is `Empty`" (R232). Moves to come that offer no request
(stores, the host's own memory, ready signals, reset events, idle edges) do not keep it from being over. -/
abbrev Final (s : State) : Prop := s.noRequestLeft ∧ s.allEmpty

/-- The steps an engine still owes: one to deliver a held response, two for an offer. -/
def Port.work {κ ρ : Type} (p : Port κ ρ) : Nat :=
  (if p.slot.isEmpty then 0 else 1) + (if p.req.isSome then 2 else 0)

/-- The responses an engine still owes. -/
def Port.owed {κ ρ : Type} (p : Port κ ρ) : Nat :=
  (if p.slot.isEmpty then 0 else 1) + (if p.req.isSome then 1 else 0)

/-- The steps the block still owes. -/
def State.work (s : State) : Nat := (s.encs.map Port.work).sum + (s.decs.map Port.work).sum

/-- The responses the block still owes. -/
def State.owed (s : State) : Nat := (s.encs.map Port.owed).sum + (s.decs.map Port.owed).sum

/-- The host keeps its duty to take responses: every `rsp_ready` is asserted (R222). -/
def State.hostTakes (s : State) : Prop := (∀ p ∈ s.encs, p.rspReady = true) ∧ (∀ p ∈ s.decs, p.rspReady = true)

end Sys2Proof.Machine
end

