-- ==== Sys2Proof/Certificates/Slice0/Obligations.lean ====
section
/-! DEFINITION. The statements for the provers. Each docstring names the rules a statement formalises or rests on. -/

open Sys2Proof Sys2Proof.Machine

/-! ### Reset -/

/-- R212: right after reset, whatever the numbers of engines, every engine is ready and none has a response valid, and a first
request may be offered at once. That `rst` is released and the host's inputs are quiet in this state is the model's choice (logs 9, 10). -/
def Obligations.ResetLeavesEnginesReady : Prop :=
  ∀ nEnc nDec : Nat,
    (∀ i < nEnc, (State.resetOf nEnc nDec).encReqReady i = true ∧ (State.resetOf nEnc nDec).encRspValid i = false ∧
      ∀ v, ∃ t, offerEnc i v (State.resetOf nEnc nDec) = .next t) ∧
    (∀ i < nDec, (State.resetOf nEnc nDec).decReqReady i = true ∧ (State.resetOf nEnc nDec).decRspValid i = false ∧
      ∀ o, ∃ t, offerDec i o (State.resetOf nEnc nDec) = .next t)

/-- The machine's reset state meets the invariant, and every slot of it is `Empty` (R34). The clause that `rst` is released in it is
no rule: it is the model's DESIGN CHOICE of log 9. -/
def Obligations.ResetStateMeetsInvariant : Prop :=
  Inv State.reset ∧ State.reset.allEmpty ∧ State.reset.rst = false

/-- R210: asserting `rst` forces every slot `Empty` and delivers nothing; while it is asserted every ready and valid is 0, and no
engine accepts or delivers: its edge changes nothing. -/
def Obligations.ResetEmptiesSlotsAndStopsEngines : Prop :=
  (∀ s : State, (driveReset true s).allEmpty ∧ (driveReset true s).rst = true ∧ (driveReset true s).received = s.received ∧
    (driveReset true s).encs.length = s.encs.length ∧ (driveReset true s).decs.length = s.decs.length) ∧
  (∀ s : State, s.rst = true →
    (∀ i, s.encReqReady i = false ∧ s.encRspValid i = false ∧ s.decReqReady i = false ∧ s.decRspValid i = false) ∧
    (∀ e, s.hasEngine e = true → engineStep e s = .next s))

/-- R211: a transaction in flight leaves no trace. Whatever the slots held, after reset is asserted and released the same
request gets the response it gets on any other idle engine: the slot holds the same response in both. The clauses that `rsp_valid`
is asserted straight after the accept are the model's DESIGN CHOICE of log 6 (a held response counts as computed; R230 leaves the
latency open) and say no more than that the slot is Full. -/
def Obligations.ReissueAfterResetGivesSameResponse : Prop :=
  ∀ (s u : State) (i : Instr), s.hasEngine (target i) = true → u.rst = false → u.idle (target i) →
    ∃ t x, exec i (driveReset false (driveReset true s)) = .next t ∧ exec i u = .next x ∧
      (∀ k, target i = .enc k → (t.encs[k]?).map Port.slot = (x.encs[k]?).map Port.slot ∧ t.encRspValid k = true) ∧
      (∀ k, target i = .dec k → (t.decs[k]?).map Port.slot = (x.decs[k]?).map Port.slot ∧ t.decRspValid k = true)

/-! ### Steps of the machine -/

/-- A step runs the decoded instruction: when an engine's edge is next and it samples a request, step is exec of the instruction
that the request decodes to, the move taken off the script and the offer ended (R26, R46; the script is the model's, log 3, and
that the transfer ends the offer its inference, log 18). -/
def Obligations.StepRunsDecodedInstruction : Prop :=
  ∀ (s : State) (e : EngineId) (rest : List Event) (q : Request), s.script = .engine e :: rest → fetch s e = some q →
    step s = exec (decode q) ({ s with script := rest }.dropOffer e)

/-- What an engine samples (R26, R46): on an engine with an empty slot, outside reset, the request the host offers, whole. -/
def Obligations.EngineSamplesWholeOffer : Prop :=
  (∀ (s : State) (i : Nat) (p : EncPort), s.encs[i]? = some p →
    fetch s (.enc i) = if s.rst = false ∧ p.slot = .empty then p.req.map (Request.enc i) else none) ∧
  (∀ (s : State) (i : Nat) (p : DecPort), s.decs[i]? = some p →
    fetch s (.dec i) = if s.rst = false ∧ p.slot = .empty then p.req.map (fun o => Request.dec i o.reading o.window) else none)

/-- R26, the accept step of an encoder and of a decoder, run as an edge of the engine: the slot becomes `Full` with `Encode` of the
offered value or `Decode` of the offered window, whichever rows of the table the window is read by (log 2); the offer ends (log 18);
nothing else changes. -/
def Obligations.AcceptFillsSlotWithResponse : Prop :=
  (∀ (s : State) (i : Nat) (p : EncPort) (v : Value), s.rst = false → s.encs[i]? = some p → p.slot = .empty → p.req = some v →
    engineStep (.enc i) s = .next (s.setEnc i ⟨.full (vencode v), none, p.rspReady⟩)) ∧
  (∀ (s : State) (i : Nat) (p : DecPort) (o : Offer), s.rst = false → s.decs[i]? = some p → p.slot = .empty → p.req = some o →
    engineStep (.dec i) s = .next (s.setDec i ⟨.full (vdecode o.window), none, p.rspReady⟩))

/-- R27, the deliver step: the host receives exactly `r`, the slot becomes `Empty`, nothing else changes. That a held response counts
as computed is the model's choice (log 6). -/
def Obligations.DeliverHandsOverResponse : Prop :=
  (∀ (s : State) (i : Nat) (p : EncPort) (r : EncRsp), s.rst = false → s.encs[i]? = some p → p.slot = .full r → p.rspReady = true →
    engineStep (.enc i) s = .next { s.setEnc i { p with slot := .empty } with received := .enc i r :: s.received }) ∧
  (∀ (s : State) (i : Nat) (p : DecPort) (r : DecRsp), s.rst = false → s.decs[i]? = some p → p.slot = .full r → p.rspReady = true →
    engineStep (.dec i) s = .next { s.setDec i { p with slot := .empty } with received := .dec i r :: s.received })

/-- Back-pressure (R26, D19): an instruction for a busy engine, or for any engine during reset, is turned away: nothing changes (for
exec that is the model's inference, log 19).
The edge of a busy engine whose host does not take the response changes nothing either, the offer included. -/
def Obligations.BusyEngineHoldsRequest : Prop :=
  (∀ (s : State) (i : Instr), s.busy (target i) → exec i s = .next s) ∧
  (∀ (s : State) (i : Instr), s.hasEngine (target i) = true → s.rst = true → exec i s = .next s) ∧
  (∀ (s : State) (i : Nat) (p : EncPort) (r : EncRsp), s.encs[i]? = some p → p.slot = .full r → p.rspReady = false →
    engineStep (.enc i) s = .next s) ∧
  (∀ (s : State) (i : Nat) (p : DecPort) (r : DecRsp), s.decs[i]? = some p → p.slot = .full r → p.rspReady = false →
    engineStep (.dec i) s = .next s)

/-- R27: the response signals carry `r` and do not change until the deliver step. Across any step, a Full encoder slot stays as
it is, or is delivered and then `Empty`, or is emptied by reset. -/
def Obligations.EncoderResponseStableUntilTaken : Prop :=
  ∀ (s t : State) (i : Nat) (p : EncPort) (r : EncRsp), s.encs[i]? = some p → p.slot = .full r → step s = .next t →
    ∃ p', t.encs[i]? = some p' ∧
      (p'.slot = .full r ∨
       (p'.slot = .empty ∧ t.received = .enc i r :: s.received) ∨
       (p'.slot = .empty ∧ t.rst = true ∧ t.received = s.received))

/-- The same of a decoder. -/
def Obligations.DecoderResponseStableUntilTaken : Prop :=
  ∀ (s t : State) (i : Nat) (p : DecPort) (r : DecRsp), s.decs[i]? = some p → p.slot = .full r → step s = .next t →
    ∃ p', t.decs[i]? = some p' ∧
      (p'.slot = .full r ∨
       (p'.slot = .empty ∧ t.received = .dec i r :: s.received) ∨
       (p'.slot = .empty ∧ t.rst = true ∧ t.received = s.received))

/-- R180, R89: no instruction faults or refuses its operand. Exec answers a next state exactly when the engine exists; otherwise
it refuses, naming the engine. R180 and R89 speak of operands only: that a missing engine is refused with `noEngine` is the model's
DESIGN CHOICE of log 1, and that a busy engine or one in reset answers a next state is the model's inference of log 19. -/
def Obligations.ExecStopsOnlyForMissingEngine : Prop :=
  ∀ (i : Instr) (s : State),
    (s.hasEngine (target i) = true → ∃ t, exec i s = .next t) ∧
    (s.hasEngine (target i) = false → exec i s = .refused (.noEngine (target i)))

/-- R25, R28, R31: `req_ready` is asserted iff the slot is `Empty` and `rst` is not asserted; response signals are exposed only while
`rsp_valid` is asserted, and are then those of the slot. Time is not modelled (log 6): a held response counts as computed. -/
def Obligations.PortSignalsFollowSlot : Prop :=
  (∀ (s : State) (i : Nat) (p : EncPort), s.encs[i]? = some p →
    (s.encReqReady i = true ↔ p.slot = .empty ∧ s.rst = false) ∧
    (s.encRspValid i = true → ∃ r, p.slot = .full r ∧ s.encRspSignals i = some r) ∧
    (s.encRspValid i = false → s.encRspSignals i = none)) ∧
  (∀ (s : State) (i : Nat) (p : DecPort), s.decs[i]? = some p →
    (s.decReqReady i = true ↔ p.slot = .empty ∧ s.rst = false) ∧
    (s.decRspValid i = true → ∃ r, p.slot = .full r ∧ s.decRspSignals i = some r) ∧
    (s.decRspValid i = false → s.decRspSignals i = none))

/-- R222: "The host has no other way to touch the block: it cannot read or write a slot". No move of the host but the assertion of
reset changes any slot, or what the host has received. -/
def Obligations.HostCannotWriteSlots : Prop :=
  ∀ (ev : Event) (s t : State), (∀ e, ev ≠ .engine e) → ev ≠ .setRst true → runEvent ev s = .next t →
    t.encs.map Port.slot = s.encs.map Port.slot ∧ t.decs.map Port.slot = s.decs.map Port.slot ∧ t.received = s.received

/-! ### Completion and results of the instructions -/

/-- R100: `VENC` on an idle encoder outside reset answers the state with its slot `Full(Encode(v))`. -/
def Obligations.VencCompletes : Prop :=
  ∀ (s : State) (e : Nat) (v : Value) (p : EncPort), s.rst = false → s.encs[e]? = some p → p.slot = .empty →
    exec (.venc e v) s = .next (s.setEnc e { p with slot := .full (vencode v) })

/-- R130: `VDEC` on an idle decoder outside reset answers the state with its slot `Full(Decode(B))`. -/
def Obligations.VdecCompletes : Prop :=
  ∀ (s : State) (n : Nat) (w : Window) (p : DecPort), s.rst = false → s.decs[n]? = some p → p.slot = .empty →
    exec (.vdec n w) s = .next (s.setDec n { p with slot := .full (vdecode w) })

/-- `VARINT.L1` to `VARINT.L4` on an idle decoder (R76 to R79, R85): the slot becomes `Full` with the sum of the shifted groups
and the format's length. -/
def Obligations.ShortFormatsComplete : Prop :=
  ∀ (s : State) (n : Nat) (p : DecPort), s.rst = false → s.decs[n]? = some p → p.slot = .empty →
    ∀ a b c d : Group,
      (∀ pad, exec (.varintL1 n a pad) s = .next (s.setDec n { p with slot := .full ⟨BitVec.ofNat 64 a.toNat, 1⟩ })) ∧
      (∀ pad, exec (.varintL2 n a b pad) s =
        .next (s.setDec n { p with slot := .full ⟨BitVec.ofNat 64 (a.toNat * 2 ^ 7 + b.toNat), 2⟩ })) ∧
      (∀ pad, exec (.varintL3 n a b c pad) s =
        .next (s.setDec n { p with slot := .full ⟨BitVec.ofNat 64 (a.toNat * 2 ^ 14 + b.toNat * 2 ^ 7 + c.toNat), 3⟩ })) ∧
      (∀ pad, exec (.varintL4 n a b c d pad) s =
        .next (s.setDec n { p with
          slot := .full ⟨BitVec.ofNat 64 (a.toNat * 2 ^ 21 + b.toNat * 2 ^ 14 + c.toNat * 2 ^ 7 + d.toNat), 4⟩ }))

/-- `VARINT.L5` to `VARINT.L8` on an idle decoder (R80 to R83, R85). -/
def Obligations.LongFormatsComplete : Prop :=
  ∀ (s : State) (n : Nat) (p : DecPort), s.rst = false → s.decs[n]? = some p → p.slot = .empty →
    ∀ a b c d e f g h : Group,
      (∀ pad, exec (.varintL5 n a b c d e pad) s =
        .next (s.setDec n { p with slot := .full ⟨BitVec.ofNat 64
          (a.toNat * 2 ^ 28 + b.toNat * 2 ^ 21 + c.toNat * 2 ^ 14 + d.toNat * 2 ^ 7 + e.toNat), 5⟩ })) ∧
      (∀ pad, exec (.varintL6 n a b c d e f pad) s =
        .next (s.setDec n { p with slot := .full ⟨BitVec.ofNat 64
          (a.toNat * 2 ^ 35 + b.toNat * 2 ^ 28 + c.toNat * 2 ^ 21 + d.toNat * 2 ^ 14 + e.toNat * 2 ^ 7 + f.toNat), 6⟩ })) ∧
      (∀ pad, exec (.varintL7 n a b c d e f g pad) s =
        .next (s.setDec n { p with slot := .full ⟨BitVec.ofNat 64
          (a.toNat * 2 ^ 42 + b.toNat * 2 ^ 35 + c.toNat * 2 ^ 28 + d.toNat * 2 ^ 21 + e.toNat * 2 ^ 14 + f.toNat * 2 ^ 7 +
            g.toNat), 7⟩ })) ∧
      (∀ pad, exec (.varintL8 n a b c d e f g h pad) s =
        .next (s.setDec n { p with slot := .full ⟨BitVec.ofNat 64
          (a.toNat * 2 ^ 49 + b.toNat * 2 ^ 42 + c.toNat * 2 ^ 35 + d.toNat * 2 ^ 28 + e.toNat * 2 ^ 21 + f.toNat * 2 ^ 14 +
            g.toNat * 2 ^ 7 + h.toNat), 8⟩ }))

/-- `VARINT.L9` on an idle decoder (R84, R85): eight groups above a full byte, the shifts 57 - 7k. -/
def Obligations.NineByteFormatCompletes : Prop :=
  ∀ (s : State) (n : Nat) (p : DecPort), s.rst = false → s.decs[n]? = some p → p.slot = .empty →
    ∀ (a b c d e f g h : Group) (i : Byte),
      exec (.varintL9 n a b c d e f g h i) s =
        .next (s.setDec n { p with slot := .full ⟨BitVec.ofNat 64
          (a.toNat * 2 ^ 57 + b.toNat * 2 ^ 50 + c.toNat * 2 ^ 43 + d.toNat * 2 ^ 36 + e.toNat * 2 ^ 29 + f.toNat * 2 ^ 22 +
            g.toNat * 2 ^ 15 + h.toNat * 2 ^ 8 + i.toNat), 9⟩ })

/-! ### Frames -/

/-- The frame of `VENC` (R26, R100: "Only the engine's slot"): every decoder, every other encoder, the offer and the ready signal
of its own port, `rst`, everything received, every byte of host memory, the position, the script and the counter stay. -/
def Obligations.VencFrame : Prop :=
  ∀ (s t : State) (e : Nat) (v : Value), exec (.venc e v) s = .next t →
    t.rst = s.rst ∧ t.decs = s.decs ∧ t.received = s.received ∧ t.hostPos = s.hostPos ∧ t.script = s.script ∧ t.tick = s.tick ∧
    (∀ a, Memory.read t.hostMem a = Memory.read s.hostMem a) ∧
    t.encs.length = s.encs.length ∧
    (∀ k, k ≠ e → t.encs[k]? = s.encs[k]?) ∧
    (∀ p, s.encs[e]? = some p → ∃ p', t.encs[e]? = some p' ∧ p'.req = p.req ∧ p'.rspReady = p.rspReady)

/-- The frame of `VDEC` and of the nine formats (R26, R130: "Only the engine's slot"), likewise. -/
def Obligations.DecoderInstructionsFrame : Prop :=
  ∀ (s t : State) (i : Instr) (n : Nat), target i = .dec n → exec i s = .next t →
    t.rst = s.rst ∧ t.encs = s.encs ∧ t.received = s.received ∧ t.hostPos = s.hostPos ∧ t.script = s.script ∧ t.tick = s.tick ∧
    (∀ a, Memory.read t.hostMem a = Memory.read s.hostMem a) ∧
    t.decs.length = s.decs.length ∧
    (∀ k, k ≠ n → t.decs[k]? = s.decs[k]?) ∧
    (∀ p, s.decs[n]? = some p → ∃ p', t.decs[n]? = some p' ∧ p'.req = p.req ∧ p'.rspReady = p.rspReady)

/-! ### The encoder -/

/-- R101: up to 0x7F one byte, equal to `v`, flag clear. -/
def Obligations.OneByteEncoding : Prop :=
  ∀ v : Value, v.toNat ≤ 0x7F →
    lane (vencode v).data 0 = v.setWidth 8 ∧ contFlag (lane (vencode v).data 0) = false ∧
    (vencode v).len = 1 ∧ (vencode v).strb = 0b000000001#9

/-- R102: up to 0x3FFF two bytes, the high group flagged. -/
def Obligations.TwoByteEncoding : Prop :=
  ∀ v : Value, 0x7F < v.toNat → v.toNat ≤ 0x3FFF →
    lane (vencode v).data 0 = (((v >>> 7) &&& 0x7F#64) ||| 0x80#64).setWidth 8 ∧
    lane (vencode v).data 1 = (v &&& 0x7F#64).setWidth 8 ∧
    (vencode v).len = 2 ∧ (vencode v).strb = 0b000000011#9

/-- R103: from 2^56 on the nine-byte form: offset 8 holds `v[7:0]`, offset `i` the flag over `v[63-7i : 57-7i]`. The condition on the
top byte is the bound. -/
def Obligations.NineByteEncoding : Prop :=
  ∀ v : Value, (0x3FFF < v.toNat ∧ v.extractLsb' 56 8 ≠ 0 ↔ 2 ^ 56 ≤ v.toNat) ∧
    (2 ^ 56 ≤ v.toNat →
      lane (vencode v).data 8 = v.extractLsb' 0 8 ∧
      (∀ i, i ≤ 7 → lane (vencode v).data i = flaggedByte (v.extractLsb' (57 - 7 * i) 7)) ∧
      (vencode v).len = 9 ∧ (vencode v).strb = 0b111111111#9)

/-- R104: between, `n = Len(v)` bytes, 3 to 8, the groups most significant first, all flagged but the lowest. -/
def Obligations.GeneralEncoding : Prop :=
  ∀ v : Value, 0x3FFF < v.toNat → v.toNat < 2 ^ 56 →
    3 ≤ varintLen v ∧ varintLen v ≤ 8 ∧ (vencode v).len = BitVec.ofNat 4 (varintLen v) ∧
    (vencode v).strb = BitVec.ofNat 9 (2 ^ varintLen v - 1) ∧
    ∀ j, j < varintLen v →
      lane (vencode v).data j =
        if j + 1 = varintLen v then terminalByte (v.extractLsb' 0 7)
        else flaggedByte (v.extractLsb' (7 * (varintLen v - 1 - j)) 7)

/-- R106: the pseudocode and the closed form of the encoder (R100) are the same function, and below 2^56 the fast paths may be
dropped: the general path's loop gives the same response. -/
def Obligations.EncoderIsItsClosedForm : Prop :=
  (∀ v : Value, vencode v = closedEncode v) ∧ (∀ v : Value, v.toNat < 2 ^ 56 → encodeGeneral v = vencode v)

/-- R107, conflict C1: in an encoding of 1 to 8 bytes the byte with the flag clear is the last, and it holds `v[6:0]`. -/
def Obligations.LowestGroupCarriesClearFlag : Prop :=
  ∀ v : Value, (vencode v).len.toNat ≤ 8 →
    (∀ k, k < (vencode v).len.toNat → (contFlag (lane (vencode v).data k) = false ↔ k + 1 = (vencode v).len.toNat)) ∧
    groupAt (vencode v).data ((vencode v).len.toNat - 1) = v.extractLsb' 0 7 ∧
    ∃ higher, lowGroups 8 v = flaggedGroup v :: higher

/-- R109: `len = Len(v)`, 1 to 9; `strb = 2^len - 1`; a decoder consumes as many bytes of them. -/
def Obligations.EncoderLengthAndStrobes : Prop :=
  ∀ v : Value, (vencode v).len.toNat = varintLen v ∧ 1 ≤ varintLen v ∧ varintLen v ≤ 9 ∧
    (vencode v).strb.toNat = 2 ^ varintLen v - 1 ∧
    ∀ pad, (vdecode (winOf (vencode v) pad)).len = (vencode v).len

/-- R72: the constraints on the fields of an encoder's response always hold. -/
def Obligations.EncoderResponsesConform : Prop := ∀ v : Value, (vencode v).Conforms

/-- R113: no window of fewer than `Len(v)` bytes decodes to `v`, and `VENC` produces `Len(v)`. -/
def Obligations.EncoderIsMinimal : Prop :=
  ∀ (v : Value) (w : Window), (vdecode w).value = v →
    varintLen v ≤ (vdecode w).len.toNat ∧ (vencode v).len.toNat = varintLen v

/-- R164: `Len` is monotone and `Encode` is one-to-one. -/
def Obligations.LengthMonotoneEncodeInjective : Prop :=
  (∀ v v' : Value, v.toNat ≤ v'.toNat → varintLen v ≤ varintLen v' ∧ (vencode v).len.toNat ≤ (vencode v').len.toNat) ∧
  (∀ v v' : Value, vencode v = vencode v' → v = v')

/-- R168: a value with bit 63 set, every negative two's-complement number, takes nine bytes, and comes back as the same bits;
-1 is nine bytes of 0xFF. -/
def Obligations.NegativeNumbersTakeNineBytes : Prop :=
  (∀ (v : Value) (pad : Window), v.toInt < 0 → (vencode v).len = 9 ∧ (vdecode (winOf (vencode v) pad)).value = v) ∧
  vencode (BitVec.ofInt 64 (-1)) = ⟨0xFFFFFFFFFFFFFFFFFF#72, 0x1FF#9, 9⟩

/-- R45: `MemWrite(k, 1, b)` puts `b` on lane `k` and sets strobe `k`; the other lanes and strobes stay. -/
def Obligations.MemWriteSetsLaneAndStrobe : Prop :=
  ∀ (o : OutWindow) (k : Nat) (b : Byte), k < 9 →
    lane (memWrite k b o).data k = b ∧ (memWrite k b o).strb.getLsbD k = true ∧
    (∀ j, j < 9 → j ≠ k → lane (memWrite k b o).data j = lane o.data j ∧ (memWrite k b o).strb.getLsbD j = o.strb.getLsbD j)

/-! ### The decoder -/

/-- R132 to R134: lengths 1, 2 and 3 by the flags of the first bytes. -/
def Obligations.DecodeStagesOneToThree : Prop :=
  ∀ w : Window,
    (contFlag (lane w 0) = false → vdecode w = ⟨(lane w 0).setWidth 64, 1⟩) ∧
    (contFlag (lane w 0) = true → contFlag (lane w 1) = false →
      vdecode w = ⟨((groupAt w 0).setWidth 64 <<< 7) ||| (lane w 1).setWidth 64, 2⟩) ∧
    (contFlag (lane w 0) = true → contFlag (lane w 1) = true → contFlag (lane w 2) = false →
      vdecode w = ⟨((groupAt w 0).setWidth 64 <<< 14) ||| ((groupAt w 1).setWidth 64 <<< 7) ||| (groupAt w 2).setWidth 64, 3⟩)

/-- R135: lengths 4 to 8. -/
def Obligations.DecodeStagesFourToEight : Prop :=
  ∀ (w : Window) (n : Nat), 4 ≤ n → n ≤ 8 → (∀ k, k + 1 < n → contFlag (lane w k) = true) → contFlag (lane w (n - 1)) = false →
    (vdecode w).value.toNat = ((List.range n).map fun k => (groupAt w k).toNat * 2 ^ (7 * (n - 1 - k))).sum ∧
    (vdecode w).len.toNat = n

/-- R137: length 9, when all eight flags are set: no flag check on the ninth byte, which is the low byte of the value. -/
def Obligations.DecodeStageNine : Prop :=
  ∀ w : Window, (∀ k, k ≤ 7 → contFlag (lane w k) = true) →
    (vdecode w).value.toNat =
      ((List.range 8).map fun k => (groupAt w k).toNat * 2 ^ (57 - 7 * k)).sum + (lane w 8).toNat ∧
    (vdecode w).len = 9

/-- R130: the loop and the closed form of the decoder are the same function. -/
def Obligations.DecoderIsItsClosedForm : Prop := ∀ w : Window, vdecode w = closedDecode w

/-- R136: the length is 1 to 9 for every window, and a value of at most eight bytes is below 2^(7 len). -/
def Obligations.DecoderLengthAndBound : Prop :=
  ∀ w : Window, 1 ≤ (vdecode w).len.toNat ∧ (vdecode w).len.toNat ≤ 9 ∧
    ((vdecode w).len.toNat ≤ 8 → (vdecode w).value.toNat < 2 ^ (7 * (vdecode w).len.toNat))

/-- R138: windows that agree on the consumed bytes decode alike. -/
def Obligations.PadBytesHaveNoEffect : Prop :=
  ∀ w w' : Window, (∀ k, k < (vdecode w).len.toNat → lane w' k = lane w k) → vdecode w' = vdecode w

/-- R87: the nine rows are mutually exclusive and cover every window, and the row that fits is named by the flags. -/
def Obligations.WireRowsPartitionWindows : Prop :=
  (∀ w : Window, ∃ r ∈ wireRows, r.fits w = true ∧ r.len = formatOf w ∧ ∀ r' ∈ wireRows, r'.fits w = true → r' = r) ∧
  (∀ w : Window, formatOf w = windowLen w ∧ (vdecode w).len.toNat = formatOf w)

/-- R86: which windows are overlong, and that the encoder produces none. -/
def Obligations.OverlongWindowsCharacterised : Prop :=
  (∀ w : Window, (vdecode w).len.toNat = 1 → ¬ Overlong w) ∧
  (∀ w : Window, 2 ≤ (vdecode w).len.toNat → (vdecode w).len.toNat ≤ 8 → (Overlong w ↔ lane w 0 = 0x80#8)) ∧
  (∀ w : Window, (vdecode w).len.toNat = 9 →
    ((Overlong w ↔ groupAt w 0 = 0 ∧ (lane w 1).getLsbD 6 = false) ∧ (Overlong w ↔ (vdecode w).value.extractLsb' 56 8 = 0))) ∧
  (∀ (v : Value) (pad : Window), ¬ Overlong (winOf (vencode v) pad))

/-- R226: a truncated encoding is decoded as if the pad continued it: `m` real bytes, all flagged, give a length greater than
`m`; with zero pad `m + 1`, with 0xFF pad nine. -/
def Obligations.TruncatedEncodingReadsPad : Prop :=
  ∀ (w : Window) (m : Nat), 1 ≤ m → m ≤ 8 → (∀ k, k < m → contFlag (lane w k) = true) →
    m < (vdecode w).len.toNat ∧
    ((∀ k, m ≤ k → k < 9 → lane w k = 0) → (vdecode w).len.toNat = m + 1) ∧
    ((∀ k, m ≤ k → k < 9 → lane w k = 0xFF#8) → (vdecode w).len.toNat = 9)

/-! ### Laws that relate the two -/

/-- R160: the round trip, with the length, for every value and every pad. -/
def Obligations.RoundTrip : Prop :=
  ∀ (v : Value) (pad : Window), vdecode (winOf (vencode v) pad) = ⟨v, (vencode v).len⟩

/-- R162: encoding again what was decoded gives the same response, all three fields. -/
def Obligations.ReencodingIsIdempotent : Prop :=
  ∀ (v : Value) (pad : Window), vencode (vdecode (winOf (vencode v) pad)).value = vencode v

/-- R163: decoding then encoding shortens, and is the identity on the consumed bytes exactly when the window is not overlong. -/
def Obligations.DecodeThenEncodeShortens : Prop :=
  ∀ w : Window,
    (vencode (vdecode w).value).len.toNat ≤ (vdecode w).len.toNat ∧
    ((vencode (vdecode w).value).len = (vdecode w).len ↔ ¬ Overlong w) ∧
    (¬ Overlong w ↔
      (vencode (vdecode w).value).len = (vdecode w).len ∧
      ∀ k, k < (vdecode w).len.toNat → lane (vencode (vdecode w).value).data k = lane w k)

/-- R144: the decoder reaches every value, and is not one-to-one. -/
def Obligations.DecoderIsOntoNotInjective : Prop :=
  (∀ v : Value, ∃ w, (vdecode w).value = v) ∧ (∃ w w' : Window, w ≠ w' ∧ vdecode w = vdecode w')

/-! ### Encodings of the instructions -/

/-- A few words of the opcode table, written out from R71, R73, R76, R77, R78 and R84. Those rules give the layouts; no bit of a word
names its port or its row. Which port and which reading `decodeTableWord` takes, by the width of the row, is the model's DESIGN
CHOICE of log 17 (the 72-bit word is as much a window of `VDEC` as of `VARINT.L9`, log 2), and the engine's number is that of log 1. -/
def Obligations.TableWordsDecode : Prop :=
  decode (.enc 0 0x124#64) = .venc 0 0x124#64 ∧
  decode (.dec 0 .operation 0x2482#72) = .vdec 0 0x2482#72 ∧
  decodeTableWord 8 0x69 = some (.varintL1 0 0x69#7 0) ∧
  decodeTableWord 16 0x2482 = some (.varintL2 0 2#7 0x24#7 0) ∧
  decodeTableWord 24 0x008081 = some (.varintL3 0 1#7 0#7 0#7 0) ∧
  decodeTableWord 72 0xEFCDD7A6BCD6E8C880 =
    some (.varintL9 0 0#7 0x48#7 0x68#7 0x56#7 0x3C#7 0x26#7 0x57#7 0x4D#7 0xEF#8)

/-- Decoding the record of any instruction, well-formed or not, gives the instruction back with every operand and every pad bit. The
engine's number and the reading tag in a record are the model's (logs 1, 2). -/
def Obligations.DecodeInvertsEncode : Prop := ∀ i : Instr, decode (encode i) = i

/-- Encoding what a request decodes to gives the request back: each request has one meaning and no bit of it is dropped. The
engine's number and the reading tag are the model's (logs 1, 2). -/
def Obligations.EncodeInvertsDecode : Prop := ∀ q : Request, encode (decode q) = q

/-- The wire rows alone decode as `VDEC` does (R93: "A decoder of windows can be written from the nine rows alone"): reading a window
by its format or as an operation has the same effect in every state. The reading tag is the model's DESIGN CHOICE of log 2. -/
def Obligations.FormatReadingEqualsOperation : Prop :=
  ∀ (n : Nat) (w : Window) (s : State), exec (decode (.dec n .format w)) s = exec (decode (.dec n .operation w)) s

/-- The decoder on byte buffers is total and rejects by name exactly the buffers that are too short (R58, R182); bytes past the
record have no part in what it reads. The byte form of a `VENC` record, and its rejection when short, are the model's choice (log 20). -/
def Obligations.ByteDecoderRejectsOnlyShortBuffers : Prop :=
  (∀ (n : Nat) (r : Reading) (bs : List Byte),
    (bs.length < 9 → decodeBytes (.dec n r) bs = .error (.shortBuffer bs.length)) ∧
    (9 ≤ bs.length → ∃ w, decodeBytes (.dec n r) bs = .ok (decode (.dec n r w)) ∧
      ∀ k, k < 9 → bs[k]? = some (lane w k))) ∧
  (∀ (e : Nat) (bs : List Byte),
    (bs.length < 8 → decodeBytes (.enc e) bs = .error (.shortRecord bs.length)) ∧
    (8 ≤ bs.length → ∃ v : Value, decodeBytes (.enc e) bs = .ok (.venc e v) ∧
      ∀ k, k < 8 → bs[k]? = some (v.extractLsb' (8 * k) 8)))

/-! ### Host, buffers and streams -/

/-- R41, R223: storing by the strobes writes offsets 0 to `len`-1 of the buffer with the encoding and no other byte. The address of
each stored byte is `base + k`. -/
def Obligations.StoreHonoursStrobes : Prop :=
  ∀ (s : State) (i base room : Nat) (v : Value), lastEnc i s.received = some (vencode v) → 9 ≤ room →
    ∃ t, storeRsp false i base room s = .next t ∧
      (∀ k, k < (vencode v).len.toNat → Memory.read t.hostMem (base + k) = some (lane (vencode v).data k)) ∧
      (∀ a, ¬ (base ≤ a ∧ a < base + (vencode v).len.toNat) → Memory.read t.hostMem a = Memory.read s.hostMem a) ∧
      t = { s with hostMem := t.hostMem }

/-- R111: a host that stores all nine lanes writes the encoding and then zeros over the `9 - len` bytes after it. -/
def Obligations.StoreAllLanesZeroesTail : Prop :=
  ∀ (s : State) (i base room : Nat) (v : Value), lastEnc i s.received = some (vencode v) → 9 ≤ room →
    ∃ t, storeRsp true i base room s = .next t ∧
      (∀ k, k < (vencode v).len.toNat → Memory.read t.hostMem (base + k) = some (lane (vencode v).data k)) ∧
      (∀ k, (vencode v).len.toNat ≤ k → k < 9 → Memory.read t.hostMem (base + k) = some 0) ∧
      (∀ a, ¬ (base ≤ a ∧ a < base + 9) → Memory.read t.hostMem a = Memory.read s.hostMem a) ∧
      t = { s with hostMem := t.hostMem }

/-- R58, R182: a transfer with a buffer of fewer than nine bytes is refused, whatever the state: no result is invented. -/
def Obligations.ShortBuffersAreRefused : Prop :=
  (∀ (all : Bool) (i base room : Nat) (s : State), room < 9 → storeRsp all i base room s = .refused (.shortBuffer room)) ∧
  (∀ (i fin : Nat) (r : Reading) (pad : List Byte) (s : State), (fin - s.hostPos) + pad.length < 9 →
    (∀ a, s.hostPos ≤ a → a < fin → (Memory.read s.hostMem a).isSome = true) →
    offerStream i r fin pad s = .refused (.shortBuffer ((fin - s.hostPos) + pad.length)))

/-- R52, R42, R225: the host offers the nine bytes at its position, its own bytes before `fin` and then pad, and afterwards advances
by the decoded length. -/
def Obligations.StreamWindowAndAdvance : Prop :=
  (∀ (s : State) (i fin : Nat) (r : Reading) (pad : List Byte) (p : DecPort),
    s.decs[i]? = some p → p.req = none → 9 ≤ (fin - s.hostPos) + pad.length →
    (∀ a, s.hostPos ≤ a → a < fin → (Memory.read s.hostMem a).isSome = true) →
    ∃ w, offerStream i r fin pad s = .next (s.setDec i { p with req := some ⟨w, r⟩ }) ∧
      (∀ k, k < 9 → s.hostPos + k < fin → Memory.read s.hostMem (s.hostPos + k) = some (lane w k)) ∧
      (∀ k, k < 9 → fin ≤ s.hostPos + k → pad[k - (fin - s.hostPos)]? = some (lane w k))) ∧
  (∀ (s : State) (i : Nat) (r : DecRsp), lastDec i s.received = some r →
    advance i s = .next { s with hostPos := s.hostPos + r.len.toNat })

/-- R222, U10: outside reset, a pending offer may be neither changed nor withdrawn: the model has no step for either. The same
offer may be kept on the port. Where a decoder's offers `u` and `o` have the same window and differ in the reading tag alone, the
payload of R222 is unchanged: that this too is refused is the model's DESIGN CHOICE of log 22, over the tag of log 2. -/
def Obligations.PendingOffersAreHeld : Prop :=
  (∀ (s : State) (i : Nat) (p : EncPort) (v u : Value), s.rst = false → s.encs[i]? = some p → p.req = some v →
    (u ≠ v → offerEnc i u s = .refused (.changedOffer (.enc i))) ∧
    offerEnc i v s = .next s ∧ withdraw (.enc i) s = .refused (.withdrawnOffer (.enc i))) ∧
  (∀ (s : State) (i : Nat) (p : DecPort) (o u : Offer), s.rst = false → s.decs[i]? = some p → p.req = some o →
    (u ≠ o → offerDec i u s = .refused (.changedOffer (.dec i))) ∧
    offerDec i o s = .next s ∧ withdraw (.dec i) s = .refused (.withdrawnOffer (.dec i)))

/-! ### The whole machine -/

/-- Every step keeps the invariant, from every state that meets it: slots hold nothing but responses of the codec, reset means
empty slots, the host receives nothing but such responses (R24, R210), and the host's memory stays in canonical form (the model's,
log 13). -/
def Obligations.StepKeepsInvariant : Prop := ∀ s t : State, Inv s → step s = .next t → Inv t

/-- R169, R53 (a), (c): steps of different engines commute. Either order leaves the same state, but for the order in which the host
received the two responses. -/
def Obligations.EnginesCommute : Prop :=
  ∀ (s : State) (e f : EngineId), e ≠ f → s.hasEngine e = true → s.hasEngine f = true →
    ∃ s₁ s₂ t₁ t₂, engineStep e s = .next s₁ ∧ engineStep f s₁ = .next t₁ ∧
      engineStep f s = .next s₂ ∧ engineStep e s₂ = .next t₂ ∧
      { t₁ with received := [] } = { t₂ with received := [] } ∧ t₁.received.Perm t₂.received

/-- R53 (a): a response depends on its own request and on nothing else. In any two states with an idle engine outside reset, the
same instruction leaves the same response in the slot. The clauses that the response signals are exposed straight after the accept
are the model's DESIGN CHOICE of log 6 (a held response counts as computed; R230 leaves the latency open) and say no more than that
the slot is Full. -/
def Obligations.ResponseDependsOnRequestAlone : Prop :=
  ∀ (s u : State) (i : Instr), s.rst = false → u.rst = false → s.idle (target i) → u.idle (target i) →
    ∃ t x, exec i s = .next t ∧ exec i u = .next x ∧
      (∀ k, target i = .enc k → (t.encs[k]?).map Port.slot = (x.encs[k]?).map Port.slot ∧ t.encRspSignals k ≠ none) ∧
      (∀ k, target i = .dec k → (t.decs[k]?).map Port.slot = (x.decs[k]?).map Port.slot ∧ t.decRspSignals k ≠ none)

/-- R230 (a), R232: when the script is empty, reset is released and the host takes responses, the run ends: after as many steps as
the block owes, every slot is `Empty`, no offer is left, nothing is scripted, and as many responses were delivered as were owed,
whatever the free choice among enabled engines. A state with a slot `Full` is not final, and a run that is over stays over, whatever
moves without a request are still to come: no step delivers anything more. The scheduling of an empty script (log 4), that a held
response counts as computed (log 6) and that an accept ends the offer (log 18) are the model's own. -/
def Obligations.UnscriptedRunDrains : Prop :=
  (∀ s : State, s.script = [] → s.rst = false → s.hostTakes →
    ∃ t, Host.Core.run Sys2Proof.core s.work s = .next t ∧ Final t ∧ t.script = [] ∧
      t.received.length = s.received.length + s.owed ∧ s.received <:+ t.received) ∧
  (∀ (s : State) (e : EngineId), s.busy e → ¬ Final s) ∧
  (∀ s t : State, Final s → step s = .next t → Final t ∧ t.received = s.received)
end

