-- ==== Sys2Proof/Laws/Lanes.lean ====
section
/-! SUPPORT. Lanes of windows, strobes, and the loop of the decoder one iteration at a time. -/

namespace Sys2Proof.Machine

theorem lane_getLsbD (w : Window) (k j : Nat) : (lane w k).getLsbD j = (decide (j < 8) && w.getLsbD (8 * k + j)) := by
  simp [lane]

theorem setLane_getLsbD (w : Window) (k : Nat) (b : Byte) (j : Nat) (hj : j < 72) :
    (setLane w k b).getLsbD j = if 8 * k ≤ j ∧ j < 8 * k + 8 then b.getLsbD (j - 8 * k) else w.getLsbD j := by
  have h255 : ∀ t, (255#72).getLsbD t = decide (t < 8) := by
    intro t
    by_cases ht : t < 72
    · have h : ∀ u : Fin 72, (255#72).getLsbD u = decide ((u : Nat) < 8) := by decide
      exact h ⟨t, ht⟩
    · rw [BitVec.getLsbD_of_ge _ _ (by omega)]
      simp; omega
  simp only [setLane, BitVec.getLsbD_or, BitVec.getLsbD_and, BitVec.getLsbD_not, BitVec.getLsbD_shiftLeft,
    BitVec.getLsbD_setWidth, h255, hj, decide_true, Bool.true_and]
  by_cases h1 : j < 8 * k
  · have h2 : ¬ (8 * k ≤ j ∧ j < 8 * k + 8) := by omega
    simp [h1, h2]
  · by_cases h3 : j < 8 * k + 8
    · have h4 : j - 8 * k < 8 := by omega
      have h5 : j - 8 * k < 72 := by omega
      have h6 : 8 * k ≤ j := by omega
      simp [h1, h3, h4, h5, h6]
    · have h4 : ¬ j - 8 * k < 8 := by omega
      have h5 : b.getLsbD (j - 8 * k) = false := BitVec.getLsbD_of_ge _ _ (by omega)
      simp [h1, h3, h4, h5]

/-- A lane just written reads as written. -/
theorem lane_setLane_same (w : Window) {k : Nat} (hk : k < 9) (b : Byte) : lane (setLane w k b) k = b := by
  apply BitVec.eq_of_getLsbD_eq
  intro j hj
  rw [lane_getLsbD, setLane_getLsbD _ _ _ _ (by omega)]
  have h : 8 * k ≤ 8 * k + j ∧ 8 * k + j < 8 * k + 8 := by omega
  simp [hj, h]

/-- The other lanes stay. -/
theorem lane_setLane_other (w : Window) {k k' : Nat} (hk : k' < 9) (hne : k' ≠ k) (b : Byte) :
    lane (setLane w k b) k' = lane w k' := by
  apply BitVec.eq_of_getLsbD_eq
  intro j hj
  rw [lane_getLsbD, lane_getLsbD, setLane_getLsbD _ _ _ _ (by omega)]
  have h : ¬ (8 * k ≤ 8 * k' + j ∧ 8 * k' + j < 8 * k + 8) := by omega
  rw [if_neg h]

/-- Two windows with the same nine lanes are the same. -/
theorem window_ext {w w' : Window} (h : ∀ k, k < 9 → lane w k = lane w' k) : w = w' := by
  apply BitVec.eq_of_getLsbD_eq
  intro j hj
  have hk := congrArg (fun b => BitVec.getLsbD b (j % 8)) (h (j / 8) (by omega))
  simp only [lane_getLsbD] at hk
  have h8 : j % 8 < 8 := Nat.mod_lt _ (by decide)
  have hd : 8 * (j / 8) + j % 8 = j := Nat.div_add_mod j 8
  simpa [h8, hd] using hk

@[simp] theorem memWrite_data (k : Nat) (b : Byte) (o : OutWindow) : (memWrite k b o).data = setLane o.data k b := rfl
@[simp] theorem memWrite_strb (k : Nat) (b : Byte) (o : OutWindow) : (memWrite k b o).strb = o.strb ||| (1#9 <<< k) := rfl
@[simp] theorem finish_data (o : OutWindow) (n : Nat) : (o.finish n).data = o.data := rfl
@[simp] theorem finish_strb (o : OutWindow) (n : Nat) : (o.finish n).strb = o.strb := rfl
@[simp] theorem finish_len (o : OutWindow) (n : Nat) : (o.finish n).len = BitVec.ofNat 4 n := rfl
@[simp] theorem blank_data : OutWindow.blank.data = 0 := rfl
@[simp] theorem blank_strb : OutWindow.blank.strb = 0 := rfl

@[simp] theorem lane_zero (k : Nat) : lane 0#72 k = 0#8 := by simp [lane]

/-- The bytes at offsets 0 to 7, in offset order. -/
theorem flagBytes_eq (w : Window) :
    flagBytes w = [lane w 0, lane w 1, lane w 2, lane w 3, lane w 4, lane w 5, lane w 6, lane w 7] := rfl

/-- The loop at a byte whose flag is clear: the last byte. -/
theorem decodeLoop_terminal {b : Byte} (h : contFlag b = false) (last : Byte) (i : Nat) (acc : Value) (bs : List Byte) :
    decodeLoop last i acc (b :: bs) = decRsp ((acc <<< 7) ||| (clearFlag b).setWidth 64) (i + 1) := by
  simp [decodeLoop, h]

/-- The loop at a byte whose flag is set: on to the next. -/
theorem decodeLoop_flagged {b : Byte} (h : contFlag b = true) (last : Byte) (i : Nat) (acc : Value) (bs : List Byte) :
    decodeLoop last i acc (b :: bs) = decodeLoop last (i + 1) ((acc <<< 7) ||| (clearFlag b).setWidth 64) bs := by
  simp [decodeLoop, h]

end Sys2Proof.Machine
end

