-- ==== Sys2Proof/Laws/Memory.lean ====
section
/-! SUPPORT. The host's memory: reads after writes, and that every operation keeps the canonical form. -/

namespace Sys2Proof.Machine

theorem risesFrom_mono {lo lo' : Nat} (h : lo' ≤ lo) :
    ∀ {m : Memory}, Memory.risesFrom lo m = true → Memory.risesFrom lo' m = true
  | [], _ => rfl
  | (a, _) :: _, hm => by
    simp only [Memory.risesFrom, Bool.and_eq_true, decide_eq_true_eq] at hm ⊢
    exact ⟨by omega, hm.2⟩

theorem risesFrom_write {x : Nat} (v : Byte) :
    ∀ {m : Memory} {lo : Nat}, Memory.risesFrom lo m = true → lo ≤ x → Memory.risesFrom lo (Memory.write m x v) = true
  | [], _, _, hx => by simp [Memory.write, Memory.risesFrom, hx]
  | (a, b) :: m, lo, hm, hx => by
    simp only [Memory.risesFrom, Bool.and_eq_true, decide_eq_true_eq] at hm
    unfold Memory.write
    split
    · simp only [Memory.risesFrom, Bool.and_eq_true, decide_eq_true_eq]
      exact ⟨hx, by omega, hm.2⟩
    · split
      · simp only [Memory.risesFrom, Bool.and_eq_true, decide_eq_true_eq]
        exact hm
      · simp only [Memory.risesFrom, Bool.and_eq_true, decide_eq_true_eq]
        exact ⟨hm.1, risesFrom_write v hm.2 (by omega)⟩

/-- A write keeps the canonical form. -/
theorem write_keeps_wf {m : Memory} (h : Memory.wf m = true) (x : Nat) (v : Byte) :
    Memory.wf (Memory.write m x v) = true := risesFrom_write v h (Nat.zero_le x)

/-- The memory right after reset is in canonical form. -/
theorem resetOf_memory_wf (m n : Nat) : Memory.wf (State.resetOf m n).hostMem = true := rfl

theorem read_write_same (x : Nat) (v : Byte) : ∀ m : Memory, Memory.read (Memory.write m x v) x = some v
  | [] => by simp [Memory.write, Memory.read]
  | (a, b) :: m => by
    unfold Memory.write
    split
    · simp [Memory.read]
    · split
      · next h => simp [Memory.read, h]
      · next h => simp [Memory.read, h, read_write_same x v m]

theorem read_write_other {x y : Nat} (h : y ≠ x) (v : Byte) :
    ∀ m : Memory, Memory.read (Memory.write m x v) y = Memory.read m y
  | [] => by simp [Memory.write, Memory.read, h]
  | (a, b) :: m => by
    unfold Memory.write
    split
    · simp [Memory.read, h]
    · split
      · next hx => subst hx; simp [Memory.read, h]
      · simp [Memory.read, read_write_other h v m]

/-- Copying lanes keeps the canonical form. -/
theorem copyLanes_keeps_wf (base : Nat) (data : Window) (keep : Nat → Bool) :
    ∀ (n k : Nat) {m : Memory}, Memory.wf m = true → Memory.wf (Memory.copyLanes m base data keep k n) = true
  | 0, _, _, h => h
  | n + 1, k, m, h => by
    unfold Memory.copyLanes
    apply copyLanes_keeps_wf base data keep n (k + 1)
    split
    · exact write_keeps_wf h _ _
    · exact h

/-- What a byte reads as after `n` lanes from `k` on are copied: a kept lane where one was stored, else as before. -/
theorem read_copyLanes (base : Nat) (data : Window) (keep : Nat → Bool) (a : Nat) :
    ∀ (n k : Nat) (m : Memory), Memory.read (Memory.copyLanes m base data keep k n) a =
      if base + k ≤ a ∧ a < base + k + n ∧ keep (a - base) = true then some (lane data (a - base)) else Memory.read m a
  | 0, k, m => by
    have h : ¬ (base + k ≤ a ∧ a < base + k + 0 ∧ keep (a - base) = true) := by omega
    simp only [Memory.copyLanes, if_neg h]
  | n + 1, k, m => by
    rw [Memory.copyLanes, read_copyLanes base data keep a n (k + 1)]
    by_cases ha : a = base + k
    · subst ha
      have hk : base + k - base = k := by omega
      have h1 : ¬ (base + (k + 1) ≤ base + k ∧ base + k < base + (k + 1) + n ∧ keep (base + k - base) = true) := by omega
      rw [if_neg h1, hk]
      by_cases hkeep : keep k = true
      · rw [if_pos hkeep, read_write_same, if_pos ⟨by omega, by omega, hkeep⟩]
      · rw [if_neg hkeep, if_neg (fun h => hkeep h.2.2)]
    · have hm : Memory.read (if keep k = true then Memory.write m (base + k) (lane data k) else m) a = Memory.read m a := by
        split
        · exact read_write_other ha _ _
        · rfl
      rw [hm]
      have hiff : (base + (k + 1) ≤ a ∧ a < base + (k + 1) + n ∧ keep (a - base) = true) ↔
          (base + k ≤ a ∧ a < base + k + (n + 1) ∧ keep (a - base) = true) := by
        constructor
        · rintro ⟨h1, h2, h3⟩; exact ⟨by omega, by omega, h3⟩
        · rintro ⟨h1, h2, h3⟩; exact ⟨by omega, by omega, h3⟩
      rw [if_congr hiff rfl rfl]

/-- The bytes read are as many as asked for. -/
theorem readBytes_length (m : Memory) :
    ∀ (n x : Nat) {bs : List Byte}, Memory.readBytes m x n = .ok bs → bs.length = n
  | 0, _, bs, h => by
    simp only [Memory.readBytes, Except.ok.injEq] at h
    simp [← h]
  | n + 1, x, bs, h => by
    simp only [Memory.readBytes] at h
    split at h
    · cases h
    · next b hb =>
      cases hr : Memory.readBytes m (x + 1) n with
      | error y => simp [hr, Except.map] at h
      | ok rest =>
        simp only [hr, Except.map, Except.ok.injEq] at h
        simp [← h, readBytes_length m n (x + 1) hr]

/-- A read of bytes that have all been written succeeds. -/
theorem readBytes_isOk (m : Memory) :
    ∀ (n x : Nat), (∀ a, x ≤ a → a < x + n → (Memory.read m a).isSome = true) → ∃ bs, Memory.readBytes m x n = .ok bs
  | 0, _, _ => ⟨[], rfl⟩
  | n + 1, x, h => by
    obtain ⟨bs, hbs⟩ := readBytes_isOk m n (x + 1) fun a h1 h2 => h a (by omega) (by omega)
    obtain ⟨b, hb⟩ := Option.isSome_iff_exists.mp (h x (by omega) (by omega))
    exact ⟨b :: bs, by simp [Memory.readBytes, hbs, hb, Except.map]⟩

end Sys2Proof.Machine
end

