-- ==== Sys2Proof/Laws/State.lean ====
section
/-! SUPPORT. The fields of each state update, and lists of ports updated at one place. -/

namespace Sys2Proof.Machine

/-! ### Lists updated at one place -/

/-- Updating an element that is there is setting it. -/
theorem modify_eq_set {α : Type} {xs : List α} {i : Nat} {x : α} (h : xs[i]? = some x) (f : α → α) :
    xs.modify i f = xs.set i (f x) := by
  have hlt : i < xs.length := (List.getElem?_eq_some_iff.mp h).1
  apply List.ext_getElem?
  intro j
  rw [List.getElem?_set, List.getElem?_modify]
  by_cases hj : i = j
  · subst hj
    rw [if_pos rfl, if_pos hlt, h]
    simp
  · simp [hj]

/-- Setting an element after updating it is setting it. -/
theorem set_modify {α : Type} (xs : List α) (i : Nat) (f : α → α) (x : α) : (xs.modify i f).set i x = xs.set i x := by
  apply List.ext_getElem?
  intro j
  simp only [List.getElem?_set, List.getElem?_modify, List.length_modify]
  by_cases hj : i = j <;> simp [hj]

/-- Setting an element to what it is changes nothing. -/
theorem set_same {α : Type} {xs : List α} {i : Nat} {x : α} (h : xs[i]? = some x) : xs.set i x = xs := by
  apply List.ext_getElem?
  intro j
  rw [List.getElem?_set]
  by_cases hj : i = j
  · subst hj
    rw [if_pos rfl, if_pos (List.getElem?_eq_some_iff.mp h).1, h]
  · rw [if_neg hj]

variable (s : State)

/-! ### Replacing an engine -/

@[simp] theorem setEnc_rst (i : Nat) (p : EncPort) : (s.setEnc i p).rst = s.rst := rfl
@[simp] theorem setEnc_encs (i : Nat) (p : EncPort) : (s.setEnc i p).encs = s.encs.set i p := rfl
@[simp] theorem setEnc_decs (i : Nat) (p : EncPort) : (s.setEnc i p).decs = s.decs := rfl
@[simp] theorem setEnc_received (i : Nat) (p : EncPort) : (s.setEnc i p).received = s.received := rfl
@[simp] theorem setEnc_hostMem (i : Nat) (p : EncPort) : (s.setEnc i p).hostMem = s.hostMem := rfl
@[simp] theorem setEnc_hostPos (i : Nat) (p : EncPort) : (s.setEnc i p).hostPos = s.hostPos := rfl
@[simp] theorem setEnc_script (i : Nat) (p : EncPort) : (s.setEnc i p).script = s.script := rfl
@[simp] theorem setEnc_tick (i : Nat) (p : EncPort) : (s.setEnc i p).tick = s.tick := rfl

@[simp] theorem setDec_rst (i : Nat) (p : DecPort) : (s.setDec i p).rst = s.rst := rfl
@[simp] theorem setDec_encs (i : Nat) (p : DecPort) : (s.setDec i p).encs = s.encs := rfl
@[simp] theorem setDec_decs (i : Nat) (p : DecPort) : (s.setDec i p).decs = s.decs.set i p := rfl
@[simp] theorem setDec_received (i : Nat) (p : DecPort) : (s.setDec i p).received = s.received := rfl
@[simp] theorem setDec_hostMem (i : Nat) (p : DecPort) : (s.setDec i p).hostMem = s.hostMem := rfl
@[simp] theorem setDec_hostPos (i : Nat) (p : DecPort) : (s.setDec i p).hostPos = s.hostPos := rfl
@[simp] theorem setDec_script (i : Nat) (p : DecPort) : (s.setDec i p).script = s.script := rfl
@[simp] theorem setDec_tick (i : Nat) (p : DecPort) : (s.setDec i p).tick = s.tick := rfl

/-! ### Ending an offer -/

@[simp] theorem dropOffer_rst (e : EngineId) : (s.dropOffer e).rst = s.rst := by cases e <;> rfl
@[simp] theorem dropOffer_received (e : EngineId) : (s.dropOffer e).received = s.received := by cases e <;> rfl
@[simp] theorem dropOffer_hostMem (e : EngineId) : (s.dropOffer e).hostMem = s.hostMem := by cases e <;> rfl
@[simp] theorem dropOffer_hostPos (e : EngineId) : (s.dropOffer e).hostPos = s.hostPos := by cases e <;> rfl
@[simp] theorem dropOffer_script (e : EngineId) : (s.dropOffer e).script = s.script := by cases e <;> rfl
@[simp] theorem dropOffer_tick (e : EngineId) : (s.dropOffer e).tick = s.tick := by cases e <;> rfl
@[simp] theorem dropOffer_enc_encs (i : Nat) :
    (s.dropOffer (.enc i)).encs = s.encs.modify i fun p => { p with req := none } := rfl
@[simp] theorem dropOffer_enc_decs (i : Nat) : (s.dropOffer (.enc i)).decs = s.decs := rfl
@[simp] theorem dropOffer_dec_encs (i : Nat) : (s.dropOffer (.dec i)).encs = s.encs := rfl
@[simp] theorem dropOffer_dec_decs (i : Nat) :
    (s.dropOffer (.dec i)).decs = s.decs.modify i fun p => { p with req := none } := rfl

/-! ### Emptying a slot, delivering -/

@[simp] theorem clearSlot_rst (e : EngineId) : (s.clearSlot e).rst = s.rst := by cases e <;> rfl
@[simp] theorem clearSlot_received (e : EngineId) : (s.clearSlot e).received = s.received := by cases e <;> rfl
@[simp] theorem clearSlot_hostMem (e : EngineId) : (s.clearSlot e).hostMem = s.hostMem := by cases e <;> rfl
@[simp] theorem clearSlot_hostPos (e : EngineId) : (s.clearSlot e).hostPos = s.hostPos := by cases e <;> rfl
@[simp] theorem clearSlot_script (e : EngineId) : (s.clearSlot e).script = s.script := by cases e <;> rfl
@[simp] theorem clearSlot_tick (e : EngineId) : (s.clearSlot e).tick = s.tick := by cases e <;> rfl
@[simp] theorem clearSlot_enc_encs (i : Nat) :
    (s.clearSlot (.enc i)).encs = s.encs.modify i fun p => { p with slot := .empty } := rfl
@[simp] theorem clearSlot_enc_decs (i : Nat) : (s.clearSlot (.enc i)).decs = s.decs := rfl
@[simp] theorem clearSlot_dec_encs (i : Nat) : (s.clearSlot (.dec i)).encs = s.encs := rfl
@[simp] theorem clearSlot_dec_decs (i : Nat) :
    (s.clearSlot (.dec i)).decs = s.decs.modify i fun p => { p with slot := .empty } := rfl

@[simp] theorem deliver_rst (e : EngineId) (r : Response) : (deliver e r s).rst = s.rst := clearSlot_rst s e
@[simp] theorem deliver_encs (e : EngineId) (r : Response) : (deliver e r s).encs = (s.clearSlot e).encs := rfl
@[simp] theorem deliver_decs (e : EngineId) (r : Response) : (deliver e r s).decs = (s.clearSlot e).decs := rfl
@[simp] theorem deliver_received (e : EngineId) (r : Response) : (deliver e r s).received = r :: s.received := rfl
@[simp] theorem deliver_hostMem (e : EngineId) (r : Response) : (deliver e r s).hostMem = s.hostMem := clearSlot_hostMem s e
@[simp] theorem deliver_hostPos (e : EngineId) (r : Response) : (deliver e r s).hostPos = s.hostPos := clearSlot_hostPos s e
@[simp] theorem deliver_script (e : EngineId) (r : Response) : (deliver e r s).script = s.script := clearSlot_script s e
@[simp] theorem deliver_tick (e : EngineId) (r : Response) : (deliver e r s).tick = s.tick := clearSlot_tick s e

/-! ### Reset -/

@[simp] theorem driveReset_rst (b : Bool) : (driveReset b s).rst = b := by cases b <;> rfl
@[simp] theorem driveReset_received (b : Bool) : (driveReset b s).received = s.received := by cases b <;> rfl
@[simp] theorem driveReset_hostMem (b : Bool) : (driveReset b s).hostMem = s.hostMem := by cases b <;> rfl
@[simp] theorem driveReset_hostPos (b : Bool) : (driveReset b s).hostPos = s.hostPos := by cases b <;> rfl
@[simp] theorem driveReset_script (b : Bool) : (driveReset b s).script = s.script := by cases b <;> rfl
@[simp] theorem driveReset_tick (b : Bool) : (driveReset b s).tick = s.tick := by cases b <;> rfl
@[simp] theorem driveReset_true_encs : (driveReset true s).encs = s.encs.map fun p => { p with slot := .empty } := rfl
@[simp] theorem driveReset_true_decs : (driveReset true s).decs = s.decs.map fun p => { p with slot := .empty } := rfl
@[simp] theorem driveReset_false_encs : (driveReset false s).encs = s.encs := rfl
@[simp] theorem driveReset_false_decs : (driveReset false s).decs = s.decs := rfl

@[simp] theorem resetOf_encs (m n : Nat) : (State.resetOf m n).encs = List.replicate m Port.idle := rfl
@[simp] theorem resetOf_decs (m n : Nat) : (State.resetOf m n).decs = List.replicate n Port.idle := rfl
@[simp] theorem resetOf_rst (m n : Nat) : (State.resetOf m n).rst = false := rfl

end Sys2Proof.Machine
end

