-- ==== Sys2Proof/Laws/Ops.lean ====
section
/-! SUPPORT. What each shared operation can do, said once. -/

namespace Sys2Proof.Machine

/-! ### Ports -/

@[simp] theorem isEmpty_empty {ρ : Type} : (Slot.empty : Slot ρ).isEmpty = true := rfl
@[simp] theorem isEmpty_full {ρ : Type} (r : ρ) : (Slot.full r).isEmpty = false := rfl

@[simp] theorem accept_req {κ ρ : Type} (rst : Bool) (r : ρ) (p : Port κ ρ) : (p.accept rst r).req = p.req := by
  unfold Port.accept; split <;> rfl
@[simp] theorem accept_rspReady {κ ρ : Type} (rst : Bool) (r : ρ) (p : Port κ ρ) :
    (p.accept rst r).rspReady = p.rspReady := by
  unfold Port.accept; split <;> rfl

/-- An idle engine outside reset accepts. -/
theorem accept_idle {κ ρ : Type} (r : ρ) {p : Port κ ρ} (h : p.slot = .empty) :
    p.accept false r = { p with slot := .full r } := by
  simp [Port.accept, Port.reqReady, h]

/-- A full engine turns the request away. -/
theorem accept_full {κ ρ : Type} (rst : Bool) (r r' : ρ) {p : Port κ ρ} (h : p.slot = .full r') : p.accept rst r = p := by
  simp [Port.accept, Port.reqReady, h]

/-- Nothing is accepted during reset. -/
theorem accept_reset {κ ρ : Type} (r : ρ) (p : Port κ ρ) : p.accept true r = p := by
  simp [Port.accept, Port.reqReady]

theorem sampled_eq_some {κ ρ : Type} {rst : Bool} {p : Port κ ρ} {q : κ} :
    p.sampled rst = some q ↔ rst = false ∧ p.slot = .empty ∧ p.req = some q := by
  unfold Port.sampled Port.reqReady
  cases rst <;> cases hs : p.slot <;> simp

theorem taken_eq_some {κ ρ : Type} {rst : Bool} {p : Port κ ρ} {r : ρ} :
    p.taken rst = some r ↔ rst = false ∧ p.slot = .full r ∧ p.rspReady = true := by
  unfold Port.taken Port.rspSignals
  cases rst <;> cases hs : p.slot <;> cases hr : p.rspReady <;> simp

/-- The two steps of an engine are never enabled together (R185). -/
theorem not_both_enabled {κ ρ : Type} (rst : Bool) (p : Port κ ρ) : p.sampled rst = none ∨ p.taken rst = none := by
  cases h : p.taken rst with
  | none => exact .inr rfl
  | some r =>
    left
    obtain ⟨-, hs, -⟩ := taken_eq_some.mp h
    simp [Port.sampled, Port.reqReady, hs]

/-! ### Accept -/

theorem acceptEnc_of {s : State} {i : Nat} {p : EncPort} (h : s.encs[i]? = some p) (r : EncRsp) :
    acceptEnc i r s = .next (s.setEnc i (p.accept s.rst r)) := by simp [acceptEnc, h]

theorem acceptDec_of {s : State} {i : Nat} {p : DecPort} (h : s.decs[i]? = some p) (r : DecRsp) :
    acceptDec i r s = .next (s.setDec i (p.accept s.rst r)) := by simp [acceptDec, h]

/-- If an encoder's accept answers a next state, the encoder exists and only its port was touched. -/
theorem acceptEnc_next {s t : State} {i : Nat} {r : EncRsp} (h : acceptEnc i r s = .next t) :
    ∃ p, s.encs[i]? = some p ∧ t = s.setEnc i (p.accept s.rst r) := by
  unfold acceptEnc at h
  split at h
  · cases h
  · next p hp => cases h; exact ⟨p, hp, rfl⟩

/-- If a decoder's accept answers a next state, the decoder exists and only its port was touched. -/
theorem acceptDec_next {s t : State} {i : Nat} {r : DecRsp} (h : acceptDec i r s = .next t) :
    ∃ p, s.decs[i]? = some p ∧ t = s.setDec i (p.accept s.rst r) := by
  unfold acceptDec at h
  split at h
  · cases h
  · next p hp => cases h; exact ⟨p, hp, rfl⟩

/-- Every instruction is the accept step of the one engine it is addressed to, with a response that the state has no part in. -/
theorem exec_shape (i : Instr) :
    (∃ e v r, i = .venc e v ∧ ∀ s, exec i s = acceptEnc e r s) ∨ (∃ n r, ∀ s, exec i s = acceptDec n r s) := by
  cases i with
  | venc e v => exact .inl ⟨e, v, vencode v, rfl, fun _ => rfl⟩
  | vdec n w => exact .inr ⟨n, vdecode w, fun _ => rfl⟩
  | varintL1 n a => exact .inr ⟨n, _, fun _ => rfl⟩
  | varintL2 n a b => exact .inr ⟨n, _, fun _ => rfl⟩
  | varintL3 n a b c => exact .inr ⟨n, _, fun _ => rfl⟩
  | varintL4 n a b c d => exact .inr ⟨n, _, fun _ => rfl⟩
  | varintL5 n a b c d e => exact .inr ⟨n, _, fun _ => rfl⟩
  | varintL6 n a b c d e f => exact .inr ⟨n, _, fun _ => rfl⟩
  | varintL7 n a b c d e f g => exact .inr ⟨n, _, fun _ => rfl⟩
  | varintL8 n a b c d e f g h => exact .inr ⟨n, _, fun _ => rfl⟩
  | varintL9 n a b c d e f g h i => exact .inr ⟨n, _, fun _ => rfl⟩

/-! ### Deliver and the edge of an engine -/

theorem deliverable_enc {s : State} {i : Nat} {r : Response} :
    deliverable s (.enc i) = some r ↔ ∃ p x, s.encs[i]? = some p ∧ p.taken s.rst = some x ∧ r = .enc i x := by
  simp only [deliverable, Option.map_eq_some_iff, Option.bind_eq_some_iff]
  constructor
  · rintro ⟨x, ⟨p, hp, hx⟩, rfl⟩; exact ⟨p, x, hp, hx, rfl⟩
  · rintro ⟨p, x, hp, hx, rfl⟩; exact ⟨x, ⟨p, hp, hx⟩, rfl⟩

theorem deliverable_dec {s : State} {i : Nat} {r : Response} :
    deliverable s (.dec i) = some r ↔ ∃ p x, s.decs[i]? = some p ∧ p.taken s.rst = some x ∧ r = .dec i x := by
  simp only [deliverable, Option.map_eq_some_iff, Option.bind_eq_some_iff]
  constructor
  · rintro ⟨x, ⟨p, hp, hx⟩, rfl⟩; exact ⟨p, x, hp, hx, rfl⟩
  · rintro ⟨p, x, hp, hx, rfl⟩; exact ⟨x, ⟨p, hp, hx⟩, rfl⟩

theorem fetch_enc {s : State} {i : Nat} {q : Request} :
    fetch s (.enc i) = some q ↔ ∃ p v, s.encs[i]? = some p ∧ p.sampled s.rst = some v ∧ q = .enc i v := by
  simp only [fetch, Option.map_eq_some_iff, Option.bind_eq_some_iff]
  constructor
  · rintro ⟨x, ⟨p, hp, hx⟩, rfl⟩; exact ⟨p, x, hp, hx, rfl⟩
  · rintro ⟨p, x, hp, hx, rfl⟩; exact ⟨x, ⟨p, hp, hx⟩, rfl⟩

theorem fetch_dec {s : State} {i : Nat} {q : Request} :
    fetch s (.dec i) = some q ↔
      ∃ p o, s.decs[i]? = some p ∧ p.sampled s.rst = some o ∧ q = .dec i o.reading o.window := by
  simp only [fetch, Option.map_eq_some_iff, Option.bind_eq_some_iff]
  constructor
  · rintro ⟨x, ⟨p, hp, hx⟩, rfl⟩; exact ⟨p, x, hp, hx, rfl⟩
  · rintro ⟨p, x, hp, hx, rfl⟩; exact ⟨x, ⟨p, hp, hx⟩, rfl⟩

/-- What an edge of an engine can do: deliver, run the decoded instruction, or nothing. -/
theorem engineStep_next {e : EngineId} {s t : State} (h : engineStep e s = .next t) :
    s.hasEngine e = true ∧
      ((∃ r, deliverable s e = some r ∧ t = deliver e r s) ∨
       (deliverable s e = none ∧ ∃ q, fetch s e = some q ∧ exec (decode q) (s.dropOffer e) = .next t) ∨
       (deliverable s e = none ∧ fetch s e = none ∧ t = s)) := by
  unfold engineStep at h
  split at h
  · next he =>
    refine ⟨he, ?_⟩
    split at h
    · next r hr => cases h; exact .inl ⟨r, hr, rfl⟩
    · next hd =>
      split at h
      · next q hq => exact .inr (.inl ⟨hd, q, hq, h⟩)
      · next hf => cases h; exact .inr (.inr ⟨hd, hf, rfl⟩)
  · cases h

/-! ### The host's moves -/

theorem offerEnc_next {i : Nat} {v : Value} {s t : State} (h : offerEnc i v s = .next t) :
    ∃ p, s.encs[i]? = some p ∧ p.mayOffer s.rst v = true ∧ t = s.setEnc i { p with req := some v } := by
  unfold offerEnc at h
  split at h
  · cases h
  · next p hp =>
    split at h
    · next hm => cases h; exact ⟨p, hp, hm, rfl⟩
    · cases h

theorem offerDec_next {i : Nat} {o : Offer} {s t : State} (h : offerDec i o s = .next t) :
    ∃ p, s.decs[i]? = some p ∧ p.mayOffer s.rst o = true ∧ t = s.setDec i { p with req := some o } := by
  unfold offerDec at h
  split at h
  · cases h
  · next p hp =>
    split at h
    · next hm => cases h; exact ⟨p, hp, hm, rfl⟩
    · cases h

theorem withdraw_next {e : EngineId} {s t : State} (h : withdraw e s = .next t) :
    (∃ i p, e = .enc i ∧ s.encs[i]? = some p ∧ p.mayWithdraw s.rst = true ∧ t = s.setEnc i { p with req := none }) ∨
    (∃ i p, e = .dec i ∧ s.decs[i]? = some p ∧ p.mayWithdraw s.rst = true ∧ t = s.setDec i { p with req := none }) := by
  unfold withdraw at h
  cases e with
  | enc i =>
    left
    dsimp only at h
    split at h
    · cases h
    · next p hp =>
      split at h
      · next hm => cases h; exact ⟨i, p, rfl, hp, hm, rfl⟩
      · cases h
  | dec i =>
    right
    dsimp only at h
    split at h
    · cases h
    · next p hp =>
      split at h
      · next hm => cases h; exact ⟨i, p, rfl, hp, hm, rfl⟩
      · cases h

theorem setReady_next {e : EngineId} {b : Bool} {s t : State} (h : setReady e b s = .next t) :
    (∃ i p, e = .enc i ∧ s.encs[i]? = some p ∧ t = s.setEnc i { p with rspReady := b }) ∨
    (∃ i p, e = .dec i ∧ s.decs[i]? = some p ∧ t = s.setDec i { p with rspReady := b }) := by
  unfold setReady at h
  cases e with
  | enc i =>
    left
    dsimp only at h
    split at h
    · cases h
    · next p hp => cases h; exact ⟨i, p, rfl, hp, rfl⟩
  | dec i =>
    right
    dsimp only at h
    split at h
    · cases h
    · next p hp => cases h; exact ⟨i, p, rfl, hp, rfl⟩

theorem storeRsp_next {all : Bool} {i base room : Nat} {s t : State} (h : storeRsp all i base room s = .next t) :
    9 ≤ room ∧ ∃ r, lastEnc i s.received = some r ∧
      t = { s with hostMem := Memory.copyLanes s.hostMem base r.data (fun k => all || r.strb.getLsbD k) 0 9 } := by
  unfold storeRsp at h
  split at h
  · cases h
  · next hroom =>
    split at h
    · cases h
    · next r hr => cases h; exact ⟨by simpa using hroom, r, hr, rfl⟩

theorem offerStream_next {i fin : Nat} {reading : Reading} {pad : List Byte} {s t : State}
    (h : offerStream i reading fin pad s = .next t) :
    ∃ real, Memory.readBytes s.hostMem s.hostPos (min (fin - s.hostPos) 9) = .ok real ∧ 9 ≤ (real ++ pad).length ∧
      offerDec i ⟨packWindow (real ++ pad), reading⟩ s = .next t := by
  unfold offerStream at h
  split at h
  · cases h
  · next real hr =>
    split at h
    · cases h
    · next hlen => exact ⟨real, hr, by simpa using hlen, h⟩

theorem advance_next {i : Nat} {s t : State} (h : advance i s = .next t) :
    ∃ r, lastDec i s.received = some r ∧ t = { s with hostPos := s.hostPos + r.len.toNat } := by
  unfold advance at h
  split at h
  · cases h
  · next r hr => cases h; exact ⟨r, hr, rfl⟩

/-! ### Step -/

theorem step_script {s : State} {ev : Event} {rest : List Event} (h : s.script = ev :: rest) :
    step s = runEvent ev { s with script := rest } := by simp [step, h]

theorem step_unscripted {s : State} (h : s.script = []) : step s = drainStep s := by simp [step, h]

/-- The chosen engine is one of those enabled. -/
theorem pick_mem {t : Nat} {es : List EngineId} {e : EngineId} (h : pick t es = some e) : e ∈ es := by
  unfold pick at h
  split at h
  · cases h
  · cases h; simp
  · exact List.mem_of_getElem? h

/-- Some engine is chosen when any is enabled. -/
theorem pick_isSome {t : Nat} {es : List EngineId} (h : es ≠ []) : ∃ e, pick t es = some e := by
  unfold pick
  split
  · exact absurd rfl h
  · exact ⟨_, rfl⟩
  · next hne _ =>
    have hlt : Config.arbiter t % es.length < es.length := Nat.mod_lt _ (List.length_pos_iff.mpr hne)
    exact ⟨_, List.getElem?_eq_getElem hlt⟩

theorem mem_enabledFrom {κ ρ : Type} {rst : Bool} {name : Nat → EngineId} {e : EngineId} :
    ∀ {ps : List (Port κ ρ)} {first : Nat},
      e ∈ enabledFrom rst name first ps ↔ ∃ j p, ps[j]? = some p ∧ p.enabled rst = true ∧ e = name (first + j)
  | [], _ => by simp [enabledFrom]
  | p :: ps, first => by
    have ih := @mem_enabledFrom κ ρ rst name e ps (first + 1)
    have tail : (∃ j q, ps[j]? = some q ∧ q.enabled rst = true ∧ e = name (first + 1 + j)) ↔
        ∃ j q, (p :: ps)[j + 1]? = some q ∧ q.enabled rst = true ∧ e = name (first + (j + 1)) := by
      simp only [List.getElem?_cons_succ, Nat.add_assoc, Nat.add_comm 1]
    unfold enabledFrom
    split
    · next hp =>
      rw [List.mem_cons, ih, tail]
      constructor
      · rintro (rfl | ⟨j, q, h⟩)
        · exact ⟨0, p, rfl, hp, rfl⟩
        · exact ⟨j + 1, q, h⟩
      · rintro ⟨j, q, h1, h2, h3⟩
        cases j with
        | zero => exact .inl h3
        | succ j => exact .inr ⟨j, q, h1, h2, h3⟩
    · next hp =>
      rw [ih, tail]
      constructor
      · rintro ⟨j, q, h⟩; exact ⟨j + 1, q, h⟩
      · rintro ⟨j, q, h1, h2, h3⟩
        cases j with
        | zero => cases h1; exact absurd h2 hp
        | succ j => exact ⟨j, q, h1, h2, h3⟩

end Sys2Proof.Machine
end

