-- ==== Sys2Proof/Laws/Rows.lean ====
section
/-! SUPPORT. The wire rows by the flags of their bytes, and the lanes of a packed byte sequence. -/

namespace Sys2Proof.Machine

/-- A masked comparison, bit by bit, where the pattern lies under the mask. -/
theorem masked_iff (w m p : Window) (h : ∀ j : Fin 72, m.getLsbD j = false → p.getLsbD j = false) :
    (w &&& m == p) = true ↔ ∀ j : Fin 72, m.getLsbD j = true → w.getLsbD j = p.getLsbD j := by
  rw [beq_iff_eq]
  constructor
  · intro he j hj
    have hb : (w &&& m).getLsbD j = p.getLsbD j := congrArg (fun x => BitVec.getLsbD x j) he
    rwa [BitVec.getLsbD_and, hj, Bool.and_true] at hb
  · intro hf
    apply BitVec.eq_of_getLsbD_eq
    intro j hj
    rw [BitVec.getLsbD_and]
    cases hm : m.getLsbD j with
    | false => rw [h ⟨j, hj⟩ hm]; simp
    | true => rw [hf ⟨j, hj⟩ hm]; simp

theorem contFlag_lane (w : Window) (k : Nat) : contFlag (lane w k) = w.getLsbD (8 * k + 7) := by
  simp [contFlag, lane]

/-- The mask of a row is the flag bits of its first bytes. -/
theorem rows_masks : ∀ r ∈ wireRows, ∀ j : Fin 72,
    r.mask.getLsbD j = decide ((j : Nat) % 8 = 7 ∧ (j : Nat) / 8 < min r.len 8) ∧
    r.pattern.getLsbD j = decide ((j : Nat) % 8 = 7 ∧ (j : Nat) / 8 < min r.len 9 - 1) := by decide

/-- A row fits exactly the windows with its flags. -/
theorem fits_iff_flags (r : WireRow) (hr : r ∈ wireRows) (w : Window) :
    r.fits w = true ↔ ∀ k, k < min r.len 8 → contFlag (lane w k) = decide (k < r.len - 1) := by
  have hlen : 1 ≤ r.len ∧ r.len ≤ 9 := by
    have : ∀ r ∈ wireRows, 1 ≤ r.len ∧ r.len ≤ 9 := by decide
    exact this r hr
  have hrow := rows_masks r hr
  rw [WireRow.fits, masked_iff]
  · constructor
    · intro h k hk
      have hj : 8 * k + 7 < 72 := by omega
      have := h ⟨8 * k + 7, hj⟩
      rw [(hrow ⟨8 * k + 7, hj⟩).1, (hrow ⟨8 * k + 7, hj⟩).2] at this
      rw [contFlag_lane]
      have h1 : (8 * k + 7) % 8 = 7 := by omega
      have h2 : (8 * k + 7) / 8 = k := by omega
      simp only [h1, h2, true_and] at this
      rw [this (by simpa using hk)]
      congr 1; simp only [eq_iff_iff]; omega
    · intro h j hj
      rw [(hrow j).1] at hj
      rw [(hrow j).2]
      have hj' := of_decide_eq_true hj
      have := h (j / 8) hj'.2
      rw [contFlag_lane] at this
      have h1 : 8 * ((j : Nat) / 8) + 7 = j := by omega
      rw [h1] at this
      rw [this]
      congr 1; simp only [eq_iff_iff]; omega
  · intro j hj
    rw [(hrow j).1] at hj
    rw [(hrow j).2]
    simp only [decide_eq_false_iff_not] at hj ⊢
    omega

/-- Lane `k` of a packed byte sequence is its byte `k`, or 0 past its end. -/
theorem lane_laneWord : ∀ (bs : List Byte) (k : Nat), k < 9 → lane (laneWord bs) k = bs.getD k 0
  | [], k, _ => by simp [laneWord]
  | b :: bs, 0, _ => by
    apply BitVec.eq_of_getLsbD_eq
    intro j hj
    rw [lane_getLsbD, laneWord, BitVec.getLsbD_or, BitVec.getLsbD_shiftLeft, BitVec.getLsbD_setWidth, List.getD_cons_zero]
    simp [hj, show j < 72 by omega]
  | b :: bs, k + 1, hk => by
    have ih := lane_laneWord bs k (by omega)
    rw [List.getD_cons_succ, ← ih]
    apply BitVec.eq_of_getLsbD_eq
    intro j hj
    have h72 : 8 * (k + 1) + j < 72 := by omega
    have h8 : ¬ 8 * (k + 1) + j < 8 := by omega
    have hs : 8 * (k + 1) + j - 8 = 8 * k + j := by omega
    have hb : b.getLsbD (8 * (k + 1) + j) = false := BitVec.getLsbD_of_ge _ _ (by omega)
    rw [lane_getLsbD, lane_getLsbD, laneWord, BitVec.getLsbD_or, BitVec.getLsbD_shiftLeft, BitVec.getLsbD_setWidth, hs, hb]
    simp [h72, h8]

end Sys2Proof.Machine
end

