-- ==== Sys2Proof/WellFormed.lean ====
section
/-! DEFINITION. Well-formed instructions. Every operand bit pattern is legal (R89); the one check is that the request names an
engine that the block has. -/

namespace Sys2Proof

/-- The check for a block of `nEnc` encoders and `nDec` decoders (R192: every instance has its own port). -/
def Instr.wellFormedIn (nEnc nDec : Nat) : Instr → Bool
  | .venc e _ => decide (e < nEnc)
  | .vdec d _ => decide (d < nDec)
  | .varintL1 n _ _ => decide (n < nDec)
  | .varintL2 n _ _ _ => decide (n < nDec)
  | .varintL3 n _ _ _ _ => decide (n < nDec)
  | .varintL4 n _ _ _ _ _ => decide (n < nDec)
  | .varintL5 n _ _ _ _ _ _ => decide (n < nDec)
  | .varintL6 n _ _ _ _ _ _ _ => decide (n < nDec)
  | .varintL7 n _ _ _ _ _ _ _ _ => decide (n < nDec)
  | .varintL8 n _ _ _ _ _ _ _ _ _ => decide (n < nDec)
  | .varintL9 n _ _ _ _ _ _ _ _ _ => decide (n < nDec)

/-- Well-formed for the default block of `Config`. -/
abbrev WellFormed (i : Instr) : Prop := i.wellFormedIn Config.nEnc Config.nDec = true

end Sys2Proof
end

