-- ==== Sys2Proof/Tests/Slice0.lean ====
section
/-! SUPPORT. Tests. Expected results are the vectors and tables of `95_test_vectors.md`, `40_encoder.md` R114 and `41_decoder.md`
R145, or written out from the layouts of `30_encoding.md`. -/

open Sys2Proof Sys2Proof.Machine

namespace Sys2Proof.Tests

/-! ### Helpers -/

/-- One encoder and one decoder, otherwise right after reset. -/
def block (e : EncPort) (d : DecPort) : State := { State.reset with encs := [e], decs := [d] }

/-- The outcome is a next state with this property. -/
def nextWith (o : Result) (f : State → Bool) : Bool :=
  match o with
  | .next s => f s
  | _ => false

/-- The outcome is this refusal. -/
def refusedWith (o : Result) (r : Refusal) : Bool :=
  match o with
  | .refused r' => decide (r' = r)
  | _ => false

/-- The two slots after one instruction on the reset state. -/
def encSlotAfter (i : Instr) (r : EncRsp) : Bool :=
  nextWith (exec i State.reset) fun s => decide (s = block ⟨.full r, none, false⟩ Port.idle)

def decSlotAfter (i : Instr) (r : DecRsp) : Bool :=
  nextWith (exec i State.reset) fun s => decide (s = block Port.idle ⟨.full r, none, false⟩)

/-! ### Well-formedness refuses a port the block does not have -/

theorem test_wf_venc : WellFormed (.venc 0 5) ∧ ¬ WellFormed (.venc 1 5) := by decide
theorem test_wf_vdec : WellFormed (.vdec 0 5) ∧ ¬ WellFormed (.vdec 1 5) := by decide
theorem test_wf_L1 : ¬ WellFormed (.varintL1 1 0 0) := by decide
theorem test_wf_L2 : ¬ WellFormed (.varintL2 1 0 0 0) := by decide
theorem test_wf_L3 : ¬ WellFormed (.varintL3 1 0 0 0 0) := by decide
theorem test_wf_L4 : ¬ WellFormed (.varintL4 1 0 0 0 0 0) := by decide
theorem test_wf_L5 : ¬ WellFormed (.varintL5 1 0 0 0 0 0 0) := by decide
theorem test_wf_L6 : ¬ WellFormed (.varintL6 1 0 0 0 0 0 0 0) := by decide
theorem test_wf_L7 : ¬ WellFormed (.varintL7 1 0 0 0 0 0 0 0 0) := by decide
theorem test_wf_L8 : ¬ WellFormed (.varintL8 1 0 0 0 0 0 0 0 0 0) := by decide
theorem test_wf_L9 : ¬ WellFormed (.varintL9 1 0 0 0 0 0 0 0 0 0) := by decide

/-! ### Decoding: words written out from the patterns of R76 to R84, the byte at offset 0 rightmost -/

theorem test_decode_venc : decode (.enc 0 0x12C#64) = .venc 0 0x12C#64 := by decide
theorem test_decode_vdec : decode (.dec 0 .operation 0xAAAAAAAAAAAAAA2C82#72) = .vdec 0 0xAAAAAAAAAAAAAA2C82#72 := by decide
theorem test_decode_L1 : decodeTableWord 8 0b01101001 = some (.varintL1 0 0b1101001#7 0) := by decide
theorem test_decode_L2 : decodeTableWord 16 0b00100100_10000010 = some (.varintL2 0 0b0000010#7 0b0100100#7 0) := by decide
theorem test_decode_L3 :
    decodeTableWord 24 0b01000000_10000100_10111101 = some (.varintL3 0 0b0111101#7 0b0000100#7 0b1000000#7 0) := by decide
theorem test_decode_L4 : decodeTableWord 32 0b00000001_10000010_10000011_10000100 =
    some (.varintL4 0 0b0000100#7 0b0000011#7 0b0000010#7 0b0000001#7 0) := by decide
theorem test_decode_L5 : decodeTableWord 40 0b01101111_11111101_10110110_11110101_10001101 =
    some (.varintL5 0 0b0001101#7 0b1110101#7 0b0110110#7 0b1111101#7 0b1101111#7 0) := by decide
theorem test_decode_L6 : decodeTableWord 48 0b00000110_10000101_10000100_10000011_10000010_10000001 =
    some (.varintL6 0 1#7 2#7 3#7 4#7 5#7 6#7 0) := by decide
theorem test_decode_L7 : decodeTableWord 56 0b00000111_10000110_10000101_10000100_10000011_10000010_10000001 =
    some (.varintL7 0 1#7 2#7 3#7 4#7 5#7 6#7 7#7 0) := by decide
theorem test_decode_L8 : decodeTableWord 64 0b00001000_10000111_10000110_10000101_10000100_10000011_10000010_10000001 =
    some (.varintL8 0 1#7 2#7 3#7 4#7 5#7 6#7 7#7 8#7 0) := by decide
theorem test_decode_L9 : decodeTableWord 72 0b10001001_10001000_10000111_10000110_10000101_10000100_10000011_10000010_10000001 =
    some (.varintL9 0 1#7 2#7 3#7 4#7 5#7 6#7 7#7 8#7 0b10001001#8) := by decide
/-- Table T5, W3: pad lanes are no part of the encoding, and are kept. -/
theorem test_decode_pad : decode (.dec 0 .format 0xAAAAAAAAAAAAAA2C82#72) = .varintL2 0 2#7 0x2C#7 0xAAAAAAAAAAAAAA#56 := by decide
theorem test_table_record_rows : decodeTableWord 64 0 = some (.venc 0 0) ∧ decodeTableWord 72 0 = some (.vdec 0 0) := by decide
theorem test_short_buffer_rejected : decodeBytes (.dec 0 .operation) [0xFF, 0xFF] = .error (.shortBuffer 2) := by rfl
/-- No two wire rows overlap (R87): two masks share a bit that the two patterns give different values. -/
theorem test_wire_rows_disjoint :
    wireRows.Pairwise fun r q => r.mask &&& q.mask &&& (r.pattern ^^^ q.pattern) ≠ 0 := by decide

/-! ### Encoding: R71, R73 and the layouts -/

theorem test_encode_L3 : encode (.varintL3 0 1#7 0#7 0#7 0) = .dec 0 .format 0x008081#72 := by decide
theorem test_encode_L9 :
    encode (.varintL9 0 0#7 0x40#7 0#7 0#7 0#7 0#7 0#7 0#7 0#8) = .dec 0 .format 0x00808080808080C080#72 := by decide

/-! ### Instructions: tables T1, T3, T4 -/

/-- E12 -/
theorem test_venc_million : encSlotAfter (.venc 0 1000000) ⟨0x4084BD#72, 0x007#9, 3⟩ = true := by decide
/-- E29 -/
theorem test_venc_nine : encSlotAfter (.venc 0 0x0123456789ABCDEF) ⟨0xEFCDD7A6BCD6E8C880#72, 0x1FF#9, 9⟩ = true := by decide
/-- V10: the group order -/
theorem test_vdec_group_order : decSlotAfter (.vdec 0 0x02AC#72) ⟨5634, 2⟩ = true := by decide
/-- V27: the ninth byte is taken whole -/
theorem test_vdec_ninth_byte : decSlotAfter (.vdec 0 0xFF8080808080808080#72) ⟨255, 9⟩ = true := by decide
/-- T1.1, with pad that has its flags set -/
theorem test_L1 : decSlotAfter (.varintL1 0 0x69#7 0xFFFFFFFFFFFFFFFF#64) ⟨105, 1⟩ = true := by decide
/-- T1.4 -/
theorem test_L2 : decSlotAfter (.varintL2 0 2#7 0x24#7 0) ⟨292, 2⟩ = true := by decide
/-- V15 -/
theorem test_L3 : decSlotAfter (.varintL3 0 0x7F#7 0x7F#7 0#7 0) ⟨2097024, 3⟩ = true := by decide
/-- V17 -/
theorem test_L4 : decSlotAfter (.varintL4 0 1#7 0#7 0#7 0#7 0) ⟨2097152, 4⟩ = true := by decide
/-- V18 -/
theorem test_L5 : decSlotAfter (.varintL5 0 0x0D#7 0x75#7 0x36#7 0x7D#7 0x6F#7 0) ⟨0xDEADBEEF, 5⟩ = true := by decide
/-- V19 -/
theorem test_L6 : decSlotAfter (.varintL6 0 1#7 0#7 0#7 0#7 0#7 0#7 0) ⟨34359738368, 6⟩ = true := by decide
/-- V20 -/
theorem test_L7 : decSlotAfter (.varintL7 0 1#7 0#7 0#7 0#7 0#7 0#7 0#7 0) ⟨4398046511104, 7⟩ = true := by decide
/-- T1.5 -/
theorem test_L8 :
    decSlotAfter (.varintL8 0 0x7F#7 0x7F#7 0x7F#7 0x7F#7 0x7F#7 0x7F#7 0x7F#7 1#7 0) ⟨72057594037927809, 8⟩ = true := by decide
/-- V31: a ninth byte 0x80 is the number 128 -/
theorem test_L9 : decSlotAfter (.varintL9 0 1#7 0#7 0#7 0#7 0#7 0#7 0#7 0#7 0x80#8) ⟨0x0200000000000080, 9⟩ = true := by decide

/-! ### A placed word is the first instruction after reset -/

theorem test_fetch_L2 : nextWith (step (State.reset.withFetchWord 16 0x2482))
    (fun s => decide (s = block Port.idle ⟨.full ⟨292, 2⟩, none, false⟩)) = true := by decide
theorem test_fetch_venc : nextWith (step (State.reset.withFetchWord 64 10))
    (fun s => decide (s = block ⟨.full ⟨0x0A#72, 0x001#9, 1⟩, none, false⟩ Port.idle)) = true := by decide
theorem test_fetch_vdec : nextWith (step (State.reset.withFetchWord 72 0x2482))
    (fun s => decide (s = block Port.idle ⟨.full ⟨292, 2⟩, none, false⟩)) = true := by decide

/-! ### The slot protocol: table T7 -/

/-- the response to `VENC 10` -/
def ten : EncRsp := ⟨0x0A#72, 0x001#9, 1⟩

/-- S3: the encoder is Full, the request for 11 is held, not lost -/
theorem test_slot_held : nextWith (engineStep (.enc 0) (block ⟨.full ten, some 11, false⟩ Port.idle))
    (fun s => decide (s = block ⟨.full ten, some 11, false⟩ Port.idle)) = true := by decide
/-- S6: delivered, and the held request can now be accepted -/
theorem test_slot_deliver : nextWith (engineStep (.enc 0) (block ⟨.full ten, some 11, true⟩ Port.idle))
    (fun s => decide (s = { block ⟨.empty, some 11, true⟩ Port.idle with received := [.enc 0 ten] })) = true := by decide
/-- S8: reset discards both responses -/
theorem test_slot_reset : nextWith (runEvent (.setRst true) (block ⟨.full ten, none, false⟩ ⟨.full ⟨0x69, 1⟩, none, false⟩))
    (fun s => decide (s = { block Port.idle Port.idle with rst := true })) = true := by decide
/-- R232: with nothing scripted, the one engine that is enabled moves -/
theorem test_unscripted_step : nextWith (step (block ⟨.empty, some 10, true⟩ Port.idle))
    (fun s => decide (s = { block ⟨.full ten, none, true⟩ Port.idle with tick := 1 })) = true := by decide

/-- S9 with R232: with both slots Empty and no request left the run is over, whatever other moves are to come. -/
theorem test_final : Final State.reset ∧
    Final { State.reset with script := [.storeStrobed 0 0 9, .poke 3 4, .seek 2, .setReady (.enc 0) true, .setRst true, .engine (.dec 0)] } := by
  decide
/-- S9: the states after S2 and S4 are not final, nor is one with a request held on a port or still to be offered. -/
theorem test_not_final : ¬ Final (block ⟨.full ten, none, false⟩ Port.idle) ∧ ¬ Final (block Port.idle ⟨.full ⟨0x69, 1⟩, none, false⟩) ∧
    ¬ Final (block ⟨.empty, some 11, false⟩ Port.idle) ∧ ¬ Final { State.reset with script := [.poke 3 4, .offerEnc 0 5] } := by
  decide

/-! ### Host moves: programs P1 and P2 -/

/-- P1: nine bytes AA, the response of `VENC 300` received -/
def afterP1 : State :=
  { State.reset with
    hostMem := (List.range 9).map fun k => (k, 0xAA#8)
    received := [.enc 0 ⟨0x2C82#72, 0x003#9, 2⟩] }

theorem test_store_strobed : nextWith (runEvent (.storeStrobed 0 0 9) afterP1)
    (fun s => decide (s.hostMem = [(0, 0x82#8), (1, 0x2C#8), (2, 0xAA#8), (3, 0xAA#8), (4, 0xAA#8), (5, 0xAA#8), (6, 0xAA#8),
      (7, 0xAA#8), (8, 0xAA#8)])) = true := by decide
theorem test_store_all_lanes : nextWith (runEvent (.storeAllLanes 0 0 9) afterP1)
    (fun s => decide (s.hostMem = [(0, 0x82#8), (1, 0x2C#8), (2, 0#8), (3, 0#8), (4, 0#8), (5, 0#8), (6, 0#8),
      (7, 0#8), (8, 0#8)])) = true := by decide
theorem test_store_short_buffer : refusedWith (runEvent (.storeStrobed 0 0 8) afterP1) (.shortBuffer 8) = true := by decide
/-- P2, iteration 5: one real byte, eight pad bytes -/
theorem test_stream_tail : nextWith (runEvent (.offerStream 0 .operation 16 (List.replicate 8 0#8))
      { State.reset with hostMem := [(15, 0x7F#8)], hostPos := 15 })
    (fun s => decide (s.decs = [⟨.empty, some ⟨0x7F#72, .operation⟩, false⟩])) = true := by decide
/-- U2: the same byte without enough pad -/
theorem test_stream_unpadded : refusedWith (runEvent (.offerStream 0 .operation 16 [0#8])
      { State.reset with hostMem := [(15, 0x7F#8)], hostPos := 15 }) (.shortBuffer 2) = true := by decide
/-- P2, iteration 2: the position advances by the length -/
theorem test_advance : nextWith (runEvent (.advance 0) { State.reset with received := [.dec 0 ⟨300, 2⟩], hostPos := 1 })
    (fun s => decide (s.hostPos = 3)) = true := by decide
/-- U10 -/
theorem test_withdraw_refused :
    refusedWith (runEvent (.withdraw (.enc 0)) (block ⟨.full ten, some 11, false⟩ Port.idle)) (.withdrawnOffer (.enc 0)) = true := by
  decide
/-- U10 -/
theorem test_change_refused :
    refusedWith (runEvent (.offerEnc 0 12) (block ⟨.full ten, some 11, false⟩ Port.idle)) (.changedOffer (.enc 0)) = true := by
  decide
theorem test_memory_canonical :
    Memory.wf (Memory.write (Memory.write (Memory.write [] 5 1) 3 2) 5 7) = true ∧
      Memory.write (Memory.write (Memory.write [] 5 1) 3 2) 5 7 = [(3, 2), (5, 7)] := by decide

end Sys2Proof.Tests
end

