-- ==== Sys2Proof/Tests/Witnesses.lean ====
section
/-! SUPPORT. For each statement with hypotheses, a concrete state and operands that meet them all, per clause at a boundary value
where the clause has a range. The name after `witness_` is the statement's. -/

open Sys2Proof Sys2Proof.Machine

namespace Sys2Proof.Tests

/-! ### States -/

/-- both engines idle, both with an offer, the host ready to take responses -/
def offering : State := block ⟨.empty, some 300, true⟩ ⟨.empty, some ⟨0x2C82#72, .format⟩, true⟩
/-- both engines Full, with the next request held, the host taking the encoder's response only -/
def holding : State := block ⟨.full ten, some 11, true⟩ ⟨.full ⟨0x69, 1⟩, some ⟨0x7F#72, .operation⟩, false⟩
/-- the offering state with the encoder's edge next -/
def scripted : State := { offering with script := [.engine (.enc 0)] }
/-- a state in reset with full slots: no run reaches it -/
def inReset : State := { holding with rst := true }

/-! ### Reset and steps -/

theorem witness_ResetLeavesEnginesReady : (0 : Nat) < 1 ∧ offerEnc 0 7 (State.resetOf 1 1) = .next
    ((State.resetOf 1 1).setEnc 0 ⟨.empty, some 7, false⟩) := by
  exact ⟨by decide, rfl⟩
theorem witness_ResetEmptiesSlotsAndStopsEngines :
    inReset.rst = true ∧ inReset.hasEngine (.enc 0) = true ∧ inReset.hasEngine (.dec 0) = true := by decide
theorem witness_ReissueAfterResetGivesSameResponse :
    holding.hasEngine (target (.venc 0 10)) = true ∧ offering.rst = false ∧ offering.idle (target (.venc 0 10)) ∧
    holding.hasEngine (target (.vdec 0 1)) = true ∧ offering.idle (target (.vdec 0 1)) :=
  ⟨rfl, rfl, ⟨_, rfl, rfl⟩, rfl, ⟨_, rfl, rfl⟩⟩
theorem witness_StepRunsDecodedInstruction :
    scripted.script = .engine (.enc 0) :: [] ∧ fetch scripted (.enc 0) = some (.enc 0 300) := by decide
theorem witness_EngineSamplesWholeOffer :
    offering.encs[0]? = some ⟨.empty, some 300, true⟩ ∧
    offering.decs[0]? = some ⟨.empty, some ⟨0x2C82#72, .format⟩, true⟩ := by decide
theorem witness_AcceptFillsSlotWithResponse :
    offering.rst = false ∧ offering.encs[0]? = some ⟨.empty, some 300, true⟩ ∧
    offering.decs[0]? = some ⟨.empty, some ⟨0x2C82#72, .format⟩, true⟩ := by decide
theorem witness_DeliverHandsOverResponse :
    (block ⟨.full ten, none, true⟩ ⟨.full ⟨0x69, 1⟩, none, true⟩).rst = false ∧
    (block ⟨.full ten, none, true⟩ ⟨.full ⟨0x69, 1⟩, none, true⟩).encs[0]? = some ⟨.full ten, none, true⟩ ∧
    (block ⟨.full ten, none, true⟩ ⟨.full ⟨0x69, 1⟩, none, true⟩).decs[0]? = some ⟨.full ⟨0x69, 1⟩, none, true⟩ := by decide
theorem witness_BusyEngineHoldsRequest :
    holding.busy (target (.venc 0 1)) ∧ holding.busy (target (.vdec 0 1)) ∧
    inReset.hasEngine (target (.vdec 0 1)) = true ∧ inReset.rst = true ∧
    (block ⟨.full ten, some 11, false⟩ Port.idle).encs[0]? = some ⟨.full ten, some 11, false⟩ ∧
    holding.decs[0]? = some ⟨.full ⟨0x69, 1⟩, some ⟨0x7F#72, .operation⟩, false⟩ :=
  ⟨⟨_, _, rfl, rfl⟩, ⟨_, _, rfl, rfl⟩, rfl, rfl, rfl, rfl⟩
theorem witness_EncoderResponseStableUntilTaken :
    holding.encs[0]? = some ⟨.full ten, some 11, true⟩ ∧
    nextWith (step { holding with script := [.engine (.enc 0)] }) (fun t => decide (t.received = [.enc 0 ten])) = true ∧
    nextWith (step { holding with script := [.setRst true] }) (fun t => t.rst) = true := by decide
theorem witness_DecoderResponseStableUntilTaken :
    holding.decs[0]? = some ⟨.full ⟨0x69, 1⟩, some ⟨0x7F#72, .operation⟩, false⟩ ∧
    nextWith (step { holding with script := [.engine (.dec 0)] }) (fun t => decide (t.decs = holding.decs)) = true := by decide
theorem witness_ExecStopsOnlyForMissingEngine :
    State.reset.hasEngine (target (.venc 0 1)) = true ∧ State.reset.hasEngine (target (.venc 1 1)) = false := by decide
theorem witness_PortSignalsFollowSlot :
    holding.encs[0]? = some ⟨.full ten, some 11, true⟩ ∧ holding.encRspValid 0 = true ∧ holding.decRspValid 0 = true ∧
    offering.encRspValid 0 = false ∧ offering.decRspValid 0 = false := by decide
theorem witness_HostCannotWriteSlots :
    nextWith (runEvent (.setReady (.enc 0) true) holding) (fun _ => true) = true ∧
    nextWith (runEvent (.poke 3 4) holding) (fun _ => true) = true ∧
    nextWith (runEvent (.setRst false) inReset) (fun _ => true) = true := by decide

/-! ### Completion and frames -/

theorem witness_VencCompletes : State.reset.rst = false ∧ State.reset.encs[0]? = some Port.idle := by decide
theorem witness_VdecCompletes : State.reset.rst = false ∧ State.reset.decs[0]? = some Port.idle := by decide
theorem witness_ShortFormatsComplete : offering.rst = false ∧
    offering.decs[0]? = some ⟨.empty, some ⟨0x2C82#72, .format⟩, true⟩ := by decide
theorem witness_LongFormatsComplete : State.reset.rst = false ∧ State.reset.decs[0]? = some Port.idle := by decide
theorem witness_NineByteFormatCompletes : State.reset.rst = false ∧ State.reset.decs[0]? = some Port.idle := by decide
theorem witness_VencFrame : nextWith (exec (.venc 0 300) offering) (fun t => decide (t ≠ offering)) = true := by decide
theorem witness_DecoderInstructionsFrame :
    target (.varintL1 0 1 0) = .dec 0 ∧ nextWith (exec (.varintL1 0 1 0) offering) (fun t => decide (t ≠ offering)) = true := by
  decide

/-! ### Encoder -/

theorem witness_OneByteEncoding : (0x7F#64).toNat ≤ 0x7F := by decide
theorem witness_TwoByteEncoding : 0x7F < (0x80#64).toNat ∧ (0x3FFF#64).toNat ≤ 0x3FFF := by decide
theorem witness_GeneralEncoding : 0x3FFF < (0x4000#64).toNat ∧ (0xFFFFFFFFFFFFFF#64).toNat < 2 ^ 56 := by decide
theorem witness_NineByteEncoding : 2 ^ 56 ≤ (0x100000000000000#64).toNat := by decide
theorem witness_LowestGroupCarriesClearFlag : (vencode 0xFFFFFFFFFFFFFF#64).len.toNat ≤ 8 := by decide
theorem witness_EncoderIsMinimal : (vdecode 0x0180#72).value = 1#64 := by decide
theorem witness_LengthMonotoneEncodeInjective : (127#64).toNat ≤ (128#64).toNat ∧ vencode 127#64 = vencode 0x7F#64 := by decide
theorem witness_NegativeNumbersTakeNineBytes : (0x8000000000000000#64).toInt < 0 := by decide
theorem witness_MemWriteSetsLaneAndStrobe : 8 < 9 ∧ (0 : Nat) < 9 ∧ 0 ≠ 8 := by decide

/-! ### Decoder -/

theorem witness_DecodeStagesOneToThree :
    contFlag (lane 0x7F#72 0) = false ∧
    (contFlag (lane 0x0180#72 0) = true ∧ contFlag (lane 0x0180#72 1) = false) ∧
    (contFlag (lane 0x008081#72 0) = true ∧ contFlag (lane 0x008081#72 1) = true ∧ contFlag (lane 0x008081#72 2) = false) := by
  decide
theorem witness_DecodeStagesFourToEight :
    (∀ k, k < 3 → contFlag (lane 0x00808081#72 k) = true) ∧ contFlag (lane 0x00808081#72 (4 - 1)) = false ∧
    (∀ k, k < 7 → contFlag (lane 0x0080808080808081#72 k) = true) ∧ contFlag (lane 0x0080808080808081#72 (8 - 1)) = false := by
  decide
theorem witness_DecodeStageNine : ∀ k, k < 8 → contFlag (lane 0x018080808080808081#72 k) = true := by decide
theorem witness_PadBytesHaveNoEffect :
    (vdecode 0x2C82#72).len.toNat = 2 ∧ ∀ k, k < 2 → lane 0xAAAAAAAAAAAAAA2C82#72 k = lane 0x2C82#72 k := by decide
theorem witness_WireRowsPartitionWindows : ∃ r ∈ wireRows, r.fits 0x2C82#72 = true := by decide
theorem witness_OverlongWindowsCharacterised :
    (vdecode 0x7F#72).len.toNat = 1 ∧ (vdecode 0x0180#72).len.toNat = 2 ∧
    (vdecode 0x0080808080808080#72).len.toNat = 8 ∧ (vdecode 0x008080808080808080#72).len.toNat = 9 := by decide
theorem witness_TruncatedEncodingReadsPad :
    (∀ k, k < 2 → contFlag (lane 0xFFFF#72 k) = true) ∧ (∀ k, k < 9 → 2 ≤ k → lane 0xFFFF#72 k = 0) ∧
    (∀ k, k < 8 → contFlag (lane 0xFFFFFFFFFFFFFFFFFF#72 k) = true) ∧
    (∀ k, k < 9 → 8 ≤ k → lane 0xFFFFFFFFFFFFFFFFFF#72 k = 0xFF#8) := by decide
theorem witness_ByteDecoderRejectsOnlyShortBuffers :
    (List.replicate 8 0x80#8).length < 9 ∧ 9 ≤ (List.replicate 9 0x80#8).length ∧
    (List.replicate 7 0x80#8).length < 8 ∧ 8 ≤ (List.replicate 8 0x80#8).length := by decide

/-! ### Host -/

theorem witness_StoreHonoursStrobes : lastEnc 0 afterP1.received = some (vencode 300) ∧ 9 ≤ 9 := by decide
theorem witness_StoreAllLanesZeroesTail : lastEnc 0 afterP1.received = some (vencode 300) ∧ 9 ≤ 9 := by decide
theorem witness_ShortBuffersAreRefused :
    8 < 9 ∧ (9 - afterP1.hostPos) + 0 = 9 ∧ (8 - afterP1.hostPos) + ([] : List Byte).length < 9 ∧
    ∀ a, a < 8 → afterP1.hostPos ≤ a → (Memory.read afterP1.hostMem a).isSome = true := by decide
theorem witness_StreamWindowAndAdvance :
    afterP1.decs[0]? = some Port.idle ∧ (Port.idle : DecPort).req = none ∧
    9 ≤ (1 - afterP1.hostPos) + (List.replicate 8 0#8).length ∧
    (∀ a, a < 1 → afterP1.hostPos ≤ a → (Memory.read afterP1.hostMem a).isSome = true) ∧
    lastDec 0 [.dec 0 ⟨300, 2⟩] = some ⟨300, 2⟩ := by decide
theorem witness_PendingOffersAreHeld :
    holding.rst = false ∧ holding.encs[0]? = some ⟨.full ten, some 11, true⟩ ∧ (12 : Value) ≠ 11 ∧
    holding.decs[0]? = some ⟨.full ⟨0x69, 1⟩, some ⟨0x7F#72, .operation⟩, false⟩ ∧
    (⟨0x7E#72, .operation⟩ : Offer) ≠ ⟨0x7F#72, .operation⟩ := by decide

/-! ### Headlines -/

/-- The offering state meets the invariant, and its step is a next state. -/
theorem witness_StepKeepsInvariant : Inv offering ∧ nextWith (step scripted) (fun _ => true) = true := by
  refine ⟨⟨?_, ?_, ?_, ?_, ?_⟩, by decide⟩
  · intro h; cases h
  · intro p hp r hr
    simp only [offering, block, List.mem_singleton] at hp
    subst hp; cases hr
  · intro p hp r hr
    simp only [offering, block, List.mem_singleton] at hp
    subst hp; cases hr
  · intro x hx; cases hx
  · rfl
theorem witness_EnginesCommute :
    EngineId.enc 0 ≠ .dec 0 ∧ holding.hasEngine (.enc 0) = true ∧ holding.hasEngine (.dec 0) = true := by decide
theorem witness_ResponseDependsOnRequestAlone :
    State.reset.rst = false ∧ offering.rst = false ∧ State.reset.idle (target (.venc 0 1)) ∧
    offering.idle (target (.venc 0 1)) ∧ State.reset.idle (target (.vdec 0 1)) ∧ offering.idle (target (.vdec 0 1)) :=
  ⟨rfl, rfl, ⟨_, rfl, rfl⟩, ⟨_, rfl, rfl⟩, ⟨_, rfl, rfl⟩, ⟨_, rfl, rfl⟩⟩
theorem witness_UnscriptedRunDrains :
    (offering.script = [] ∧ offering.rst = false ∧ offering.hostTakes ∧ offering.work = 4 ∧ offering.owed = 2) ∧
    holding.busy (.enc 0) ∧
    (Final { State.reset with script := [.poke 3 4] } ∧
      nextWith (step { State.reset with script := [.poke 3 4] }) (fun t => decide (t.hostMem = [(3, 4#8)])) = true) := by
  refine ⟨⟨rfl, rfl, ⟨?_, ?_⟩, rfl, rfl⟩, ⟨_, _, rfl, rfl⟩, ?_, ?_⟩ <;> decide

end Sys2Proof.Tests
end

section
/-! PROOF. The two readings of a decoder window agree (R87, R93): the row that fits is the one the first clear flag names, and the
groups it reads spell the value of the loop of R130. -/

namespace Sys2Proof.Machine

/-! ### The length that the flags give -/

/-- The encoding at the head of the window ends after `n` bytes: the first `n - 1` flags are set, the next is clear unless `n` is 9
(R87). -/
structure EndsAt (w : Window) (n : Nat) : Prop where
  pos : 1 ≤ n
  le_nine : n ≤ 9
  flagged : ∀ k, k + 1 < n → contFlag (lane w k) = true
  terminal : n ≤ 8 → contFlag (lane w (n - 1)) = false

theorem exists_endsAt (w : Window) : ∃ n, EndsAt w n := by
  by_cases h : ∃ k, k < 8 ∧ contFlag (lane w k) = false
  · obtain ⟨hlt, hclear⟩ := Nat.find_spec h
    refine ⟨Nat.find h + 1, by omega, by omega, fun k hk => ?_, fun _ => hclear⟩
    have hmin := Nat.find_min h (m := k) (by omega)
    simpa [show k < 8 by omega] using hmin
  · push Not at h
    exact ⟨9, by omega, by omega, fun k hk => by simpa using h k (by omega), fun h9 => absurd h9 (by omega)⟩

/-- Where the encoding ends after `n` bytes, the row of length `n` fits and no other. -/
theorem fits_iff_len_eq {w : Window} {n : Nat} (h : EndsAt w n) {r : WireRow} (hr : r ∈ wireRows) :
    r.fits w = true ↔ r.len = n := by
  have hlen : ∀ r ∈ wireRows, 1 ≤ r.len ∧ r.len ≤ 9 := by decide
  obtain ⟨hr1, hr9⟩ := hlen r hr
  obtain ⟨hpos, hnine, hset, hclear⟩ := h
  rw [fits_iff_flags r hr]
  constructor
  · intro hflags
    rcases Nat.lt_trichotomy r.len n with hlt | heq | hgt
    · have hlast := hflags (r.len - 1) (by omega)
      rw [hset _ (by omega)] at hlast
      simp at hlast
    · exact heq
    · have hlast := hflags (n - 1) (by omega)
      rw [hclear (by omega), eq_comm, decide_eq_false_iff_not] at hlast
      omega
  · rintro rfl k hk
    by_cases hlt : k < r.len - 1
    · rw [hset k (by omega), decide_eq_true hlt]
    · obtain rfl : k = r.len - 1 := by omega
      rw [hclear (by omega), decide_eq_false hlt]

theorem findFormat_eq {w : Window} {n : Nat} :
    ∀ {rows : List WireRow}, (∀ r ∈ rows, (r.fits w = true ↔ r.len = n)) → (∃ r ∈ rows, r.len = n) → findFormat w rows = n
  | [], _, hex => by simp at hex
  | r :: rows, hfits, hex => by
    rw [List.forall_mem_cons] at hfits
    obtain ⟨hhead, htail⟩ := hfits
    unfold findFormat
    split
    · next hfit => exact hhead.mp hfit
    · next hfit =>
      refine findFormat_eq htail ?_
      simpa [mt hhead.mpr hfit] using hex

theorem formatOf_eq {w : Window} {n : Nat} (h : EndsAt w n) : formatOf w = n := by
  refine findFormat_eq (fun r hr => fits_iff_len_eq h hr) ?_
  have hrow : ∀ n, 1 ≤ n → n ≤ 9 → ∃ r ∈ wireRows, r.len = n := by
    intro n h1 h9
    interval_cases n <;> decide
  exact hrow n h.pos h.le_nine

/-! ### The value that the groups spell -/

/-- Shifting by the width of `y` and or-ing `y` in appends it. -/
theorem shift_or_eq_append {m n k : Nat} (x : BitVec m) (y : BitVec n) :
    (x.setWidth k <<< n) ||| y.setWidth k = (x ++ y).setWidth k := by
  apply BitVec.eq_of_getLsbD_eq
  intro j hj
  simp only [BitVec.getLsbD_or, BitVec.getLsbD_shiftLeft, BitVec.getLsbD_setWidth, BitVec.getLsbD_append, hj, decide_true,
    Bool.true_and]
  by_cases hjn : j < n
  · simp [hjn]
  · simp [hjn, show j - n < k by omega, BitVec.getLsbD_of_ge y j (by omega)]

/-- A byte without its flag is its payload group (R75). -/
theorem clearFlag_lane_setWidth (w : Window) (k : Nat) : (clearFlag (lane w k)).setWidth 64 = (groupAt w k).setWidth 64 := by
  have hmask : ∀ j : Fin 8, (Config.payloadMask).getLsbD j = decide ((j : Nat) < 7) := by decide
  apply BitVec.eq_of_getLsbD_eq
  intro j hj
  simp only [clearFlag, groupAt, BitVec.getLsbD_setWidth, BitVec.getLsbD_and, lane_getLsbD, BitVec.getLsbD_extractLsb']
  by_cases h8 : j < 8
  · rw [hmask ⟨j, h8⟩]
    simp [h8, Bool.and_comm]
  · simp [h8, show ¬ j < 7 by omega]

/-- The loop appends the group of a flagged byte and goes on. -/
theorem decodeLoop_appends {m : Nat} {w : Window} {k : Nat} (h : contFlag (lane w k) = true) (last : Byte) (i : Nat)
    (x : BitVec m) (bs : List Byte) :
    decodeLoop last i (x.setWidth 64) (lane w k :: bs) = decodeLoop last (i + 1) ((x ++ groupAt w k).setWidth 64) bs := by
  rw [decodeLoop_flagged h, clearFlag_lane_setWidth, shift_or_eq_append]

/-- The loop appends the group of a terminal byte and ends. -/
theorem decodeLoop_ends {m : Nat} {w : Window} {k : Nat} (h : contFlag (lane w k) = false) (last : Byte) (i : Nat)
    (x : BitVec m) (bs : List Byte) :
    decodeLoop last i (x.setWidth 64) (lane w k :: bs) = decRsp ((x ++ groupAt w k).setWidth 64) (i + 1) := by
  rw [decodeLoop_terminal h, clearFlag_lane_setWidth, shift_or_eq_append]

/-- Past the eighth byte the loop appends the last byte whole (R141). -/
theorem decodeLoop_last {m : Nat} (last : Byte) (i : Nat) (x : BitVec m) :
    decodeLoop last i (x.setWidth 64) [] = decRsp ((x ++ last).setWidth 64) (i + 1) := by
  rw [decodeLoop, shift_or_eq_append]

/-- The first iteration at a terminal byte. -/
theorem vdecode_first_terminal {w : Window} (h : contFlag (lane w 0) = false) :
    vdecode w = decRsp ((groupAt w 0).setWidth 64) 1 := by
  rw [vdecode, flagBytes_eq, decodeLoop_terminal h, clearFlag_lane_setWidth]
  simp

/-- The first iteration at a flagged byte. -/
theorem vdecode_first_flagged {w : Window} (h : contFlag (lane w 0) = true) :
    vdecode w = decodeLoop (lane w 8) 1 ((groupAt w 0).setWidth 64)
      [lane w 1, lane w 2, lane w 3, lane w 4, lane w 5, lane w 6, lane w 7] := by
  rw [vdecode, flagBytes_eq, decodeLoop_flagged h, clearFlag_lane_setWidth]
  simp [memRead]

/-- The response of the row of length `n` for a window, in the closed form that `exec` uses for the nine formats (R85). -/
def rowRsp (w : Window) : Nat → DecRsp
  | 1 => decRsp (valueL1 (groupAt w 0)) 1
  | 2 => decRsp (valueL2 (groupAt w 0) (groupAt w 1)) 2
  | 3 => decRsp (valueL3 (groupAt w 0) (groupAt w 1) (groupAt w 2)) 3
  | 4 => decRsp (valueL4 (groupAt w 0) (groupAt w 1) (groupAt w 2) (groupAt w 3)) 4
  | 5 => decRsp (valueL5 (groupAt w 0) (groupAt w 1) (groupAt w 2) (groupAt w 3) (groupAt w 4)) 5
  | 6 => decRsp (valueL6 (groupAt w 0) (groupAt w 1) (groupAt w 2) (groupAt w 3) (groupAt w 4) (groupAt w 5)) 6
  | 7 => decRsp (valueL7 (groupAt w 0) (groupAt w 1) (groupAt w 2) (groupAt w 3) (groupAt w 4) (groupAt w 5) (groupAt w 6)) 7
  | 8 => decRsp (valueL8 (groupAt w 0) (groupAt w 1) (groupAt w 2) (groupAt w 3) (groupAt w 4) (groupAt w 5) (groupAt w 6)
      (groupAt w 7)) 8
  | _ => decRsp (valueL9 (groupAt w 0) (groupAt w 1) (groupAt w 2) (groupAt w 3) (groupAt w 4) (groupAt w 5) (groupAt w 6)
      (groupAt w 7) (lane w 8)) 9

/-- A window read by its wire row runs as the accept step with that row's response. -/
theorem exec_decodeWire_rowRsp {w : Window} {k : Nat} (h : EndsAt w k) (n : Nat) (s : State) :
    exec (decodeWire n w) s = acceptDec n (rowRsp w k) s := by
  rw [decodeWire, formatOf_eq h]
  have hpos := h.pos
  have hnine := h.le_nine
  interval_cases k <;> rfl

/-- `Decode(B)` is the response of the row that the flags name: the loop runs along the bytes of that row. -/
theorem vdecode_eq_rowRsp {w : Window} {n : Nat} (h : EndsAt w n) : vdecode w = rowRsp w n := by
  obtain ⟨hpos, hnine, hset, hclear⟩ := h
  obtain rfl | h1 : n = 1 ∨ 1 < n := by omega
  · exact vdecode_first_terminal (hclear (by omega))
  rw [vdecode_first_flagged (hset 0 h1)]
  obtain rfl | h2 : n = 2 ∨ 2 < n := by omega
  · exact decodeLoop_ends (hclear (by omega)) ..
  rw [decodeLoop_appends (hset 1 h2)]
  obtain rfl | h3 : n = 3 ∨ 3 < n := by omega
  · exact decodeLoop_ends (hclear (by omega)) ..
  rw [decodeLoop_appends (hset 2 h3)]
  obtain rfl | h4 : n = 4 ∨ 4 < n := by omega
  · exact decodeLoop_ends (hclear (by omega)) ..
  rw [decodeLoop_appends (hset 3 h4)]
  obtain rfl | h5 : n = 5 ∨ 5 < n := by omega
  · exact decodeLoop_ends (hclear (by omega)) ..
  rw [decodeLoop_appends (hset 4 h5)]
  obtain rfl | h6 : n = 6 ∨ 6 < n := by omega
  · exact decodeLoop_ends (hclear (by omega)) ..
  rw [decodeLoop_appends (hset 5 h6)]
  obtain rfl | h7 : n = 7 ∨ 7 < n := by omega
  · exact decodeLoop_ends (hclear (by omega)) ..
  rw [decodeLoop_appends (hset 6 h7)]
  obtain rfl | rfl : n = 8 ∨ n = 9 := by omega
  · exact decodeLoop_ends (hclear (by omega)) ..
  · rw [decodeLoop_appends (hset 7 (by omega)), decodeLoop_last]
    rfl

/-- Reading a window by its wire row runs as `VDEC` of it (R93). -/
theorem exec_decodeWire (n : Nat) (w : Window) (s : State) : exec (decodeWire n w) s = acceptDec n (vdecode w) s := by
  obtain ⟨k, hk⟩ := exists_endsAt w
  rw [exec_decodeWire_rowRsp hk, vdecode_eq_rowRsp hk]

end Sys2Proof.Machine
end

section
/-! PROOF. The edge of an engine: which of its two steps is enabled, and what that step leaves (R26, R27, R46). -/

namespace Sys2Proof.Machine

/-! ### Instructions by the engine they are addressed to -/

theorem exec_of_target_enc {i : Instr} {e : Nat} (h : target i = .enc e) : ∃ r, ∀ s, exec i s = acceptEnc e r s := by
  cases i with
  | venc e' v => cases h; exact ⟨vencode v, fun _ => rfl⟩
  | _ => cases h

theorem exec_of_target_dec {i : Instr} {n : Nat} (h : target i = .dec n) : ∃ r, ∀ s, exec i s = acceptDec n r s := by
  cases i with
  | venc e v => cases h
  | _ => cases h; exact ⟨_, fun _ => rfl⟩

/-- A sampled encoder request runs as the accept step with `Encode` of its value. -/
theorem exec_decode_enc (i : Nat) (v : Value) (s : State) : exec (decode (.enc i v)) s = acceptEnc i (vencode v) s := rfl

/-- A sampled decoder request runs as the accept step with `Decode` of its window, whichever rows it is read by (log 2). -/
theorem exec_decode_dec (i : Nat) (reading : Reading) (w : Window) (s : State) :
    exec (decode (.dec i reading w)) s = acceptDec i (vdecode w) s := by
  cases reading with
  | operation => rfl
  | format => exact exec_decodeWire i w s

/-! ### The engines of a state -/

theorem hasEngine_enc {s : State} {i : Nat} : s.hasEngine (.enc i) = true ↔ ∃ p, s.encs[i]? = some p := by
  simp [State.hasEngine, List.getElem?_eq_some_iff]

theorem hasEngine_dec {s : State} {i : Nat} : s.hasEngine (.dec i) = true ↔ ∃ p, s.decs[i]? = some p := by
  simp [State.hasEngine, List.getElem?_eq_some_iff]

/-- An engine that samples a request exists and has no response to deliver (R185). -/
theorem hasEngine_and_not_deliverable_of_fetch {s : State} {e : EngineId} {q : Request} (h : fetch s e = some q) :
    s.hasEngine e = true ∧ deliverable s e = none := by
  cases e with
  | enc i =>
    obtain ⟨p, v, hp, hv, -⟩ := fetch_enc.mp h
    have htaken : p.taken s.rst = none := (not_both_enabled s.rst p).resolve_left (by simp [hv])
    exact ⟨hasEngine_enc.mpr ⟨p, hp⟩, by simp [deliverable, hp, htaken]⟩
  | dec i =>
    obtain ⟨p, o, hp, ho, -⟩ := fetch_dec.mp h
    have htaken : p.taken s.rst = none := (not_both_enabled s.rst p).resolve_left (by simp [ho])
    exact ⟨hasEngine_dec.mpr ⟨p, hp⟩, by simp [deliverable, hp, htaken]⟩

theorem hasEngine_of_deliverable {s : State} {e : EngineId} {r : Response} (h : deliverable s e = some r) :
    s.hasEngine e = true := by
  cases e with
  | enc i => obtain ⟨p, -, hp, -⟩ := deliverable_enc.mp h; exact hasEngine_enc.mpr ⟨p, hp⟩
  | dec i => obtain ⟨p, -, hp, -⟩ := deliverable_dec.mp h; exact hasEngine_dec.mpr ⟨p, hp⟩

/-! ### What the edge does, by what is enabled -/

theorem engineStep_of_fetch {s : State} {e : EngineId} {q : Request} (h : fetch s e = some q) :
    engineStep e s = exec (decode q) (s.dropOffer e) := by
  obtain ⟨he, hd⟩ := hasEngine_and_not_deliverable_of_fetch h
  simp [engineStep, he, hd, h]

theorem engineStep_of_deliverable {s : State} {e : EngineId} {r : Response} (h : deliverable s e = some r) :
    engineStep e s = .next (deliver e r s) := by
  simp [engineStep, hasEngine_of_deliverable h, h]

theorem engineStep_of_disabled {s : State} {e : EngineId} (he : s.hasEngine e = true) (hd : deliverable s e = none)
    (hf : fetch s e = none) : engineStep e s = .next s := by
  simp [engineStep, he, hd, hf]

/-! ### The accept edge (R26) -/

theorem engineStep_accept_enc {s : State} {i : Nat} {p : EncPort} {v : Value} (hp : s.encs[i]? = some p)
    (h : p.sampled s.rst = some v) :
    engineStep (.enc i) s = .next (s.setEnc i ⟨.full (vencode v), none, p.rspReady⟩) := by
  obtain ⟨hrst, hslot, -⟩ := sampled_eq_some.mp h
  have hdrop : (s.dropOffer (.enc i)).encs[i]? = some { p with req := none } := by simp [hp]
  rw [engineStep_of_fetch (fetch_enc.mpr ⟨p, v, hp, h, rfl⟩), exec_decode_enc, acceptEnc_of hdrop, dropOffer_rst, hrst,
    accept_idle (p := { p with req := none }) _ hslot, State.setEnc, dropOffer_enc_encs, set_modify]
  rfl

theorem engineStep_accept_dec {s : State} {i : Nat} {p : DecPort} {o : Offer} (hp : s.decs[i]? = some p)
    (h : p.sampled s.rst = some o) :
    engineStep (.dec i) s = .next (s.setDec i ⟨.full (vdecode o.window), none, p.rspReady⟩) := by
  obtain ⟨hrst, hslot, -⟩ := sampled_eq_some.mp h
  have hdrop : (s.dropOffer (.dec i)).decs[i]? = some { p with req := none } := by simp [hp]
  rw [engineStep_of_fetch (fetch_dec.mpr ⟨p, o, hp, h, rfl⟩), exec_decode_dec, acceptDec_of hdrop, dropOffer_rst, hrst,
    accept_idle (p := { p with req := none }) _ hslot, State.setDec, dropOffer_dec_decs, set_modify]
  rfl

/-! ### The deliver edge (R27) -/

theorem engineStep_deliver_enc {s : State} {i : Nat} {p : EncPort} {r : EncRsp} (hp : s.encs[i]? = some p)
    (h : p.taken s.rst = some r) :
    engineStep (.enc i) s = .next { s.setEnc i { p with slot := .empty } with received := .enc i r :: s.received } := by
  rw [engineStep_of_deliverable (deliverable_enc.mpr ⟨p, r, hp, h, rfl⟩), deliver, State.clearSlot, modify_eq_set hp]
  rfl

theorem engineStep_deliver_dec {s : State} {i : Nat} {p : DecPort} {r : DecRsp} (hp : s.decs[i]? = some p)
    (h : p.taken s.rst = some r) :
    engineStep (.dec i) s = .next { s.setDec i { p with slot := .empty } with received := .dec i r :: s.received } := by
  rw [engineStep_of_deliverable (deliverable_dec.mpr ⟨p, r, hp, h, rfl⟩), deliver, State.clearSlot, modify_eq_set hp]
  rfl

/-! ### The edge at which nothing is enabled -/

/-- A full engine samples nothing (R26). -/
theorem sampled_of_full {κ ρ : Type} (rst : Bool) {p : Port κ ρ} {r : ρ} (h : p.slot = .full r) : p.sampled rst = none := by
  simp [Port.sampled, Port.reqReady, h]

/-- A host that is not ready takes nothing (R27). -/
theorem taken_of_not_ready {κ ρ : Type} (rst : Bool) {p : Port κ ρ} (h : p.rspReady = false) : p.taken rst = none := by
  simp [Port.taken, h]

theorem engineStep_disabled_enc {s : State} {i : Nat} {p : EncPort} (hp : s.encs[i]? = some p) (hs : p.sampled s.rst = none)
    (ht : p.taken s.rst = none) : engineStep (.enc i) s = .next s :=
  engineStep_of_disabled (hasEngine_enc.mpr ⟨p, hp⟩) (by simp [deliverable, hp, ht]) (by simp [fetch, hp, hs])

theorem engineStep_disabled_dec {s : State} {i : Nat} {p : DecPort} (hp : s.decs[i]? = some p) (hs : p.sampled s.rst = none)
    (ht : p.taken s.rst = none) : engineStep (.dec i) s = .next s :=
  engineStep_of_disabled (hasEngine_dec.mpr ⟨p, hp⟩) (by simp [deliverable, hp, ht]) (by simp [fetch, hp, hs])

end Sys2Proof.Machine
end

section
/-! PROOF. What one step can do to the slots, to what the host has received and to its memory, and the invariant (R24, R210). -/

namespace Sys2Proof.Machine

/-! ### What a step does to one slot -/

/-- What one step can do to a slot, given `rst` and the received responses before (`rst`, `got`) and after it (`rst'`, `got'`).
`made` are the responses its engine makes, `out` how the host receives them. -/
inductive SlotMove {ρ : Type} (made : ρ → Prop) (out : ρ → Response) (rst rst' : Bool) (got got' : List Response) :
    Slot ρ → Slot ρ → Prop where
  /-- the slot stays, and reset is not newly asserted -/
  | keep {x : Slot ρ} (hrst : rst' = true → rst = true) : SlotMove made out rst rst' got got' x x
  /-- accept, outside reset (R26) -/
  | accept {r : ρ} (hmade : made r) (hrst : rst' = false) : SlotMove made out rst rst' got got' .empty (.full r)
  /-- deliver (R27) -/
  | deliver {r : ρ} (hgot : got' = out r :: got) : SlotMove made out rst rst' got got' (.full r) .empty
  /-- reset discards what the slot holds (R210, R211) -/
  | discard {x : Slot ρ} (hrst : rst' = true) (hgot : got' = got) : SlotMove made out rst rst' got got' x .empty

/-- `SlotMove` of encoder `i` between two states. -/
def EncMove (s t : State) (i : Nat) (p p' : EncPort) : Prop :=
  SlotMove (fun r => ∃ v, r = vencode v) (.enc i) s.rst t.rst s.received t.received p.slot p'.slot

/-- `SlotMove` of decoder `i` between two states. -/
def DecMove (s t : State) (i : Nat) (p p' : DecPort) : Prop :=
  SlotMove (fun r => ∃ w, r = vdecode w) (.dec i) s.rst t.rst s.received t.received p.slot p'.slot

/-- A slot that keeps to made responses still does after a move. -/
theorem SlotMove.full_made {ρ : Type} {made : ρ → Prop} {out : ρ → Response} {rst rst' : Bool} {got got' : List Response}
    {x x' : Slot ρ} (h : SlotMove made out rst rst' got got' x x') (hx : ∀ r, x = .full r → made r) :
    ∀ r, x' = .full r → made r := by
  intro r hr
  cases h with
  | keep => exact hx r hr
  | accept hmade => cases hr; exact hmade
  | deliver => cases hr
  | discard => cases hr

/-- Under reset a slot is empty after a move, if it was already under reset before. -/
theorem SlotMove.empty_in_reset {ρ : Type} {made : ρ → Prop} {out : ρ → Response} {rst rst' : Bool} {got got' : List Response}
    {x x' : Slot ρ} (h : SlotMove made out rst rst' got got' x x') (hrst' : rst' = true) (hx : rst = true → x = .empty) :
    x' = .empty := by
  cases h with
  | keep hrst => exact hx (hrst hrst')
  | accept _ hrst => rw [hrst'] at hrst; cases hrst
  | deliver => rfl
  | discard => rfl

/-- A held response stays, is delivered, or is discarded by reset. -/
theorem SlotMove.of_full {ρ : Type} {made : ρ → Prop} {out : ρ → Response} {rst rst' : Bool} {got got' : List Response}
    {x x' : Slot ρ} {r : ρ} (h : SlotMove made out rst rst' got got' x x') (hx : x = .full r) :
    x' = .full r ∨ (x' = .empty ∧ got' = out r :: got) ∨ (x' = .empty ∧ rst' = true ∧ got' = got) := by
  cases h with
  | keep => exact .inl hx
  | accept => cases hx
  | deliver hgot => cases hx; exact .inr (.inl ⟨rfl, hgot⟩)
  | discard hrst hgot => exact .inr (.inr ⟨rfl, hrst, hgot⟩)

/-! ### What a step does to the state -/

/-- `x` is the response that an engine of `s` holds. -/
def State.Holds (s : State) : Response → Prop
  | .enc i r => ∃ p, s.encs[i]? = some p ∧ p.slot = .full r
  | .dec i r => ∃ p, s.decs[i]? = some p ∧ p.slot = .full r

/-- What one step can do to the block and to what the host got from it: each slot moves, every newly received response was held,
and host memory keeps its canonical form. -/
structure Moved (s t : State) : Prop where
  encs : ∀ i, Option.Rel (EncMove s t i) s.encs[i]? t.encs[i]?
  decs : ∀ i, Option.Rel (DecMove s t i) s.decs[i]? t.decs[i]?
  received : ∀ x ∈ t.received, x ∈ s.received ∨ s.Holds x
  memory : Memory.wf s.hostMem = true → Memory.wf t.hostMem = true

section Lists
variable {α : Type} {R : Nat → α → α → Prop}

theorem rel_of_refl (hR : ∀ j x, R j x x) (xs : List α) (j : Nat) : Option.Rel (R j) xs[j]? xs[j]? := by
  cases xs[j]? with
  | none => exact .none
  | some x => exact .some (hR j x)

/-- Setting one element of a list relates every place of it, if the new element is related to the old. -/
theorem rel_set (hR : ∀ j x, R j x x) {xs : List α} {i : Nat} {x x' : α} (hx : xs[i]? = some x) (hxx' : R i x x') (j : Nat) :
    Option.Rel (R j) xs[j]? (xs.set i x')[j]? := by
  by_cases hij : i = j
  · subst hij
    rw [List.getElem?_set_self (List.getElem?_eq_some_iff.mp hx).1, hx]
    exact .some hxx'
  · rw [List.getElem?_set_ne hij]
    exact rel_of_refl hR xs j

theorem rel_map {f : α → α} (hf : ∀ j x, R j x (f x)) (xs : List α) (j : Nat) : Option.Rel (R j) xs[j]? (xs.map f)[j]? := by
  rw [List.getElem?_map]
  cases xs[j]? with
  | none => exact .none
  | some x => exact .some (hf j x)

theorem exists_of_rel_left {R : α → α → Prop} {o o' : Option α} {x : α} (h : Option.Rel R o o') (ho : o = some x) :
    ∃ x', o' = some x' ∧ R x x' := by
  subst ho
  cases h with
  | some hR => exact ⟨_, rfl, hR⟩

/-- Every element of the second list is related to one of the first. -/
theorem exists_mem_of_rel {xs xs' : List α} (h : ∀ j, Option.Rel (R j) xs[j]? xs'[j]?) {x' : α} (hx' : x' ∈ xs') :
    ∃ j, ∃ x ∈ xs, R j x x' := by
  obtain ⟨j, hj⟩ := List.mem_iff_getElem?.mp hx'
  have hrel := h j
  rw [hj] at hrel
  cases hx : xs[j]? with
  | none => rw [hx] at hrel; cases hrel
  | some x =>
    rw [hx] at hrel
    cases hrel with
    | some hR => exact ⟨j, x, List.mem_of_getElem? hx, hR⟩

end Lists

/-! ### The invariant along a move -/

theorem fromCodec_of_holds {s : State} (hs : Inv s) : ∀ {x : Response}, s.Holds x → x.FromCodec
  | .enc _ r, ⟨p, hp, hr⟩ => hs.encSlots p (List.mem_of_getElem? hp) r hr
  | .dec _ r, ⟨p, hp, hr⟩ => hs.decSlots p (List.mem_of_getElem? hp) r hr

theorem inv_of_moved {s t : State} (hs : Inv s) (h : Moved s t) : Inv t := by
  refine ⟨fun hrst => ⟨fun p' hp' => ?_, fun p' hp' => ?_⟩, fun p' hp' => ?_, fun p' hp' => ?_, fun x hx => ?_, h.memory hs.memory⟩
  · obtain ⟨_, p, hp, hm⟩ := exists_mem_of_rel h.encs hp'
    exact SlotMove.empty_in_reset hm hrst fun hs' => (hs.emptyInReset hs').1 p hp
  · obtain ⟨_, p, hp, hm⟩ := exists_mem_of_rel h.decs hp'
    exact SlotMove.empty_in_reset hm hrst fun hs' => (hs.emptyInReset hs').2 p hp
  · obtain ⟨_, p, hp, hm⟩ := exists_mem_of_rel h.encs hp'
    exact SlotMove.full_made hm (hs.encSlots p hp)
  · obtain ⟨_, p, hp, hm⟩ := exists_mem_of_rel h.decs hp'
    exact SlotMove.full_made hm (hs.decSlots p hp)
  · exact (h.received x hx).elim (hs.delivered x) (fromCodec_of_holds hs)

/-! ### Every step is such a move -/

/-- A move of the host on its own memory and position. -/
theorem moved_hostMem {s : State} {m : Memory} (hm : Memory.wf s.hostMem = true → Memory.wf m = true) (pos : Nat) :
    Moved s { s with hostMem := m, hostPos := pos } :=
  ⟨rel_of_refl (fun _ _ => .keep id) _, rel_of_refl (fun _ _ => .keep id) _, fun _ => .inl, hm⟩

theorem moved_refl (s : State) : Moved s s := moved_hostMem id s.hostPos

/-- Replacing an encoder's port, with no response received, is a move if it moves the slot. -/
theorem moved_setEnc {s : State} {i : Nat} {p p' : EncPort} (hp : s.encs[i]? = some p)
    (h : EncMove s (s.setEnc i p') i p p') : Moved s (s.setEnc i p') :=
  ⟨rel_set (fun _ _ => .keep id) hp h, rel_of_refl (fun _ _ => .keep id) _, fun _ => .inl, id⟩

/-- Likewise a decoder's port. -/
theorem moved_setDec {s : State} {i : Nat} {p p' : DecPort} (hp : s.decs[i]? = some p)
    (h : DecMove s (s.setDec i p') i p p') : Moved s (s.setDec i p') :=
  ⟨rel_of_refl (fun _ _ => .keep id) _, rel_set (fun _ _ => .keep id) hp h, fun _ => .inl, id⟩

theorem moved_driveReset (b : Bool) (s : State) : Moved s (driveReset b s) := by
  cases b with
  | false => exact ⟨rel_of_refl (fun _ _ => .keep nofun) _, rel_of_refl (fun _ _ => .keep nofun) _, fun _ => .inl, id⟩
  | true => exact ⟨rel_map (fun _ _ => .discard rfl rfl) _, rel_map (fun _ _ => .discard rfl rfl) _, fun _ => .inl, id⟩

theorem moved_engineStep_enc {i : Nat} {s t : State} (h : engineStep (.enc i) s = .next t) : Moved s t := by
  obtain ⟨p, hp⟩ := hasEngine_enc.mp (engineStep_next h).1
  cases ht : p.taken s.rst with
  | some r =>
    obtain ⟨-, hslot, -⟩ := taken_eq_some.mp ht
    rw [engineStep_deliver_enc hp ht] at h
    cases h
    refine ⟨rel_set (fun _ _ => .keep id) hp ?_, rel_of_refl (fun _ _ => .keep id) _, fun x hx => ?_, id⟩
    · rw [EncMove, hslot]
      exact .deliver rfl
    · rcases List.mem_cons.mp hx with rfl | hx
      · exact .inr ⟨p, hp, hslot⟩
      · exact .inl hx
  | none =>
    cases hv : p.sampled s.rst with
    | some v =>
      obtain ⟨hrst, hslot, -⟩ := sampled_eq_some.mp hv
      rw [engineStep_accept_enc hp hv] at h
      cases h
      refine moved_setEnc hp ?_
      rw [EncMove, hslot]
      exact .accept ⟨v, rfl⟩ hrst
    | none =>
      rw [engineStep_disabled_enc hp hv ht] at h
      cases h
      exact moved_refl s

theorem moved_engineStep_dec {i : Nat} {s t : State} (h : engineStep (.dec i) s = .next t) : Moved s t := by
  obtain ⟨p, hp⟩ := hasEngine_dec.mp (engineStep_next h).1
  cases ht : p.taken s.rst with
  | some r =>
    obtain ⟨-, hslot, -⟩ := taken_eq_some.mp ht
    rw [engineStep_deliver_dec hp ht] at h
    cases h
    refine ⟨rel_of_refl (fun _ _ => .keep id) _, rel_set (fun _ _ => .keep id) hp ?_, fun x hx => ?_, id⟩
    · rw [DecMove, hslot]
      exact .deliver rfl
    · rcases List.mem_cons.mp hx with rfl | hx
      · exact .inr ⟨p, hp, hslot⟩
      · exact .inl hx
  | none =>
    cases ho : p.sampled s.rst with
    | some o =>
      obtain ⟨hrst, hslot, -⟩ := sampled_eq_some.mp ho
      rw [engineStep_accept_dec hp ho] at h
      cases h
      refine moved_setDec hp ?_
      rw [DecMove, hslot]
      exact .accept ⟨o.window, rfl⟩ hrst
    | none =>
      rw [engineStep_disabled_dec hp ho ht] at h
      cases h
      exact moved_refl s

theorem moved_offerDec {i : Nat} {o : Offer} {s t : State} (h : offerDec i o s = .next t) : Moved s t := by
  obtain ⟨p, hp, -, rfl⟩ := offerDec_next h
  exact moved_setDec hp (.keep id)

theorem moved_storeRsp {all : Bool} {i base room : Nat} {s t : State} (h : storeRsp all i base room s = .next t) : Moved s t := by
  obtain ⟨-, r, -, rfl⟩ := storeRsp_next h
  exact moved_hostMem (copyLanes_keeps_wf base r.data _ 9 0) s.hostPos

theorem moved_runEvent {ev : Event} {s t : State} (h : runEvent ev s = .next t) : Moved s t := by
  cases ev with
  | setRst b => cases h; exact moved_driveReset b s
  | offerEnc i v =>
    obtain ⟨p, hp, -, rfl⟩ := offerEnc_next h
    exact moved_setEnc hp (.keep id)
  | offerDec i o => exact moved_offerDec h
  | withdraw e =>
    obtain ⟨i, p, -, hp, -, rfl⟩ | ⟨i, p, -, hp, -, rfl⟩ := withdraw_next h
    · exact moved_setEnc hp (.keep id)
    · exact moved_setDec hp (.keep id)
  | setReady e b =>
    obtain ⟨i, p, -, hp, rfl⟩ | ⟨i, p, -, hp, rfl⟩ := setReady_next h
    · exact moved_setEnc hp (.keep id)
    · exact moved_setDec hp (.keep id)
  | engine e =>
    cases e with
    | enc i => exact moved_engineStep_enc h
    | dec i => exact moved_engineStep_dec h
  | storeStrobed i base room => exact moved_storeRsp h
  | storeAllLanes i base room => exact moved_storeRsp h
  | offerStream i reading fin pad =>
    obtain ⟨real, -, -, hoffer⟩ := offerStream_next h
    exact moved_offerDec hoffer
  | advance i =>
    obtain ⟨r, -, rfl⟩ := advance_next h
    exact moved_hostMem id _
  | seek pos => cases h; exact moved_hostMem id pos
  | poke a b => cases h; exact moved_hostMem (write_keeps_wf · a b) s.hostPos

/-- A step changes nothing or is one move, taken in a state that differs in the model's own fields only (logs 3, 4). -/
theorem step_next {s t : State} (h : step s = .next t) :
    t = s ∨ ∃ ev script tick, runEvent ev { s with script := script, tick := tick } = .next t := by
  cases hscript : s.script with
  | cons ev rest =>
    rw [step_script hscript] at h
    exact .inr ⟨ev, rest, s.tick, h⟩
  | nil =>
    rw [step_unscripted hscript, drainStep] at h
    split at h
    · cases h; exact .inl rfl
    · next e _ => exact .inr ⟨.engine e, s.script, s.tick + 1, h⟩

theorem moved_step {s t : State} (h : step s = .next t) : Moved s t := by
  obtain rfl | ⟨ev, script, tick, hev⟩ := step_next h
  · exact moved_refl _
  · obtain ⟨hencs, hdecs, hreceived, hmemory⟩ := moved_runEvent hev
    refine ⟨hencs, hdecs, fun x hx => ?_, hmemory⟩
    cases x with
    | enc i r => exact hreceived _ hx
    | dec i r => exact hreceived _ hx

end Sys2Proof.Machine
end

section
/-! PROOF. The obligations on the state, its steps and the frames of the instructions. -/

namespace Sys2Proof.Machine

/-! ### The invariant -/

/-- Settles O57: every step is a `Moved`, and a `Moved` keeps the invariant. -/
theorem stepKeepsInvariant : Obligations.StepKeepsInvariant :=
  fun _ _ hs h => inv_of_moved hs (moved_step h)

/-- Every slot right after reset is empty (R34). -/
theorem resetOf_allEmpty (m n : Nat) : (State.resetOf m n).allEmpty := by
  constructor
  · intro p hp
    rw [List.eq_of_mem_replicate hp]
    rfl
  · intro p hp
    rw [List.eq_of_mem_replicate hp]
    rfl

/-- A state with empty slots, nothing received and canonical memory meets the invariant. -/
theorem inv_of_allEmpty {s : State} (hempty : s.allEmpty) (hreceived : s.received = []) (hmem : Memory.wf s.hostMem = true) :
    Inv s := by
  refine ⟨fun _ => hempty, fun p hp r hr => ?_, fun p hp r hr => ?_, fun x hx => ?_, hmem⟩
  · rw [hempty.1 p hp] at hr; cases hr
  · rw [hempty.2 p hp] at hr; cases hr
  · rw [hreceived] at hx; cases hx

/-- Settles O2: after reset the slots are empty, nothing is received and memory is unwritten. -/
theorem resetStateMeetsInvariant : Obligations.ResetStateMeetsInvariant :=
  have hempty := resetOf_allEmpty Config.nEnc Config.nDec
  ⟨inv_of_allEmpty hempty rfl (resetOf_memory_wf _ _), hempty, rfl⟩

/-! ### Held responses -/

/-- Settles O10, by what a step can do to a full slot. -/
theorem encoderResponseStableUntilTaken : Obligations.EncoderResponseStableUntilTaken := by
  intro s t i p r hp hr h
  obtain ⟨p', hp', hm⟩ := exists_of_rel_left ((moved_step h).encs i) hp
  exact ⟨p', hp', SlotMove.of_full hm hr⟩

/-- Settles O11, by what a step can do to a full slot. -/
theorem decoderResponseStableUntilTaken : Obligations.DecoderResponseStableUntilTaken := by
  intro s t i p r hp hr h
  obtain ⟨p', hp', hm⟩ := exists_of_rel_left ((moved_step h).decs i) hp
  exact ⟨p', hp', SlotMove.of_full hm hr⟩

/-! ### Edges of the engines -/

/-- Settles O7: outside reset an empty slot samples the offer, and both readings of a window run as `Decode`. -/
theorem acceptFillsSlotWithResponse : Obligations.AcceptFillsSlotWithResponse :=
  ⟨fun _ _ _ _ hrst hp hslot hreq => engineStep_accept_enc hp (sampled_eq_some.mpr ⟨hrst, hslot, hreq⟩),
   fun _ _ _ _ hrst hp hslot hreq => engineStep_accept_dec hp (sampled_eq_some.mpr ⟨hrst, hslot, hreq⟩)⟩

/-- Settles O8: outside reset a ready host takes the held response. -/
theorem deliverHandsOverResponse : Obligations.DeliverHandsOverResponse :=
  ⟨fun _ _ _ _ hrst hp hslot hready => engineStep_deliver_enc hp (taken_eq_some.mpr ⟨hrst, hslot, hready⟩),
   fun _ _ _ _ hrst hp hslot hready => engineStep_deliver_dec hp (taken_eq_some.mpr ⟨hrst, hslot, hready⟩)⟩

/-- An accept that leaves the port as it is leaves the encoder's state as it is. -/
theorem acceptEnc_of_unchanged {s : State} {i : Nat} {p : EncPort} {r : EncRsp} (hp : s.encs[i]? = some p)
    (h : p.accept s.rst r = p) : acceptEnc i r s = .next s := by
  rw [acceptEnc_of hp, h, State.setEnc, set_same hp]

/-- Likewise of a decoder. -/
theorem acceptDec_of_unchanged {s : State} {i : Nat} {p : DecPort} {r : DecRsp} (hp : s.decs[i]? = some p)
    (h : p.accept s.rst r = p) : acceptDec i r s = .next s := by
  rw [acceptDec_of hp, h, State.setDec, set_same hp]

theorem exec_of_busy {s : State} {i : Instr} (h : s.busy (target i)) : exec i s = .next s := by
  cases htarget : target i with
  | enc e =>
    obtain ⟨p, r', hp, hslot⟩ := htarget ▸ h
    obtain ⟨r, hr⟩ := exec_of_target_enc htarget
    rw [hr, acceptEnc_of_unchanged hp (accept_full _ _ r' hslot)]
  | dec n =>
    obtain ⟨p, r', hp, hslot⟩ := htarget ▸ h
    obtain ⟨r, hr⟩ := exec_of_target_dec htarget
    rw [hr, acceptDec_of_unchanged hp (accept_full _ _ r' hslot)]

theorem exec_of_reset {s : State} {i : Instr} (h : s.hasEngine (target i) = true) (hrst : s.rst = true) :
    exec i s = .next s := by
  cases htarget : target i with
  | enc e =>
    obtain ⟨p, hp⟩ := hasEngine_enc.mp (htarget ▸ h)
    obtain ⟨r, hr⟩ := exec_of_target_enc htarget
    rw [hr, acceptEnc_of_unchanged hp (hrst ▸ accept_reset r p)]
  | dec n =>
    obtain ⟨p, hp⟩ := hasEngine_dec.mp (htarget ▸ h)
    obtain ⟨r, hr⟩ := exec_of_target_dec htarget
    rw [hr, acceptDec_of_unchanged hp (hrst ▸ accept_reset r p)]

/-- Settles O9: a full slot and an asserted `rst` leave the port as it is, and neither step of a full engine with an unready host
is enabled. -/
theorem busyEngineHoldsRequest : Obligations.BusyEngineHoldsRequest :=
  ⟨fun _ _ => exec_of_busy, fun _ _ => exec_of_reset,
   fun _ _ _ _ hp hslot hready => engineStep_disabled_enc hp (sampled_of_full _ hslot) (taken_of_not_ready _ hready),
   fun _ _ _ _ hp hslot hready => engineStep_disabled_dec hp (sampled_of_full _ hslot) (taken_of_not_ready _ hready)⟩

/-- Settles O5: an engine that samples a request runs it, and the script is no part of what it samples. -/
theorem stepRunsDecodedInstruction : Obligations.StepRunsDecodedInstruction := by
  intro s e rest q hscript hq
  have hq' : fetch { s with script := rest } e = some q := by
    cases e with
    | enc i => exact hq
    | dec i => exact hq
  rw [step_script hscript]
  exact engineStep_of_fetch hq'

/-! ### Signals of a port -/

theorem reqReady_iff {κ ρ : Type} {rst : Bool} {p : Port κ ρ} : p.reqReady rst = true ↔ p.slot = .empty ∧ rst = false := by
  cases hslot : p.slot <;> simp [Port.reqReady, hslot]

theorem sampled_eq_ite {κ ρ : Type} [DecidableEq ρ] (rst : Bool) (p : Port κ ρ) :
    p.sampled rst = if rst = false ∧ p.slot = .empty then p.req else none :=
  if_congr (reqReady_iff.trans and_comm) rfl rfl

/-- The response signals are those of the slot while `rsp_valid` is asserted. -/
theorem rspSignals_of_rspValid {κ ρ : Type} {rst : Bool} {p : Port κ ρ} (h : p.rspValid rst = true) :
    ∃ r, p.slot = .full r ∧ p.rspSignals rst = some r := by
  cases hslot : p.slot with
  | empty => simp [Port.rspValid, hslot] at h
  | full r => exact ⟨r, rfl, by simpa [Port.rspValid, Port.rspSignals, hslot] using h⟩

/-- No response signals are exposed while `rsp_valid` is not asserted (R31). -/
theorem rspSignals_of_not_rspValid {κ ρ : Type} {rst : Bool} {p : Port κ ρ} (h : p.rspValid rst = false) :
    p.rspSignals rst = none := by
  cases hslot : p.slot with
  | empty => simp [Port.rspSignals, hslot]
  | full r => simpa [Port.rspValid, Port.rspSignals, hslot] using h

/-- Settles O6: what a port samples, on the port of the engine. -/
theorem engineSamplesWholeOffer : Obligations.EngineSamplesWholeOffer := by
  constructor
  · intro s i p hp
    simp only [fetch, hp, Option.bind_some, sampled_eq_ite, apply_ite (Option.map _), Option.map_none]
  · intro s i p hp
    simp only [fetch, hp, Option.bind_some, sampled_eq_ite, apply_ite (Option.map _), Option.map_none]

/-- Settles O13: the signals of a port, on the port of the engine. -/
theorem portSignalsFollowSlot : Obligations.PortSignalsFollowSlot := by
  constructor
  · intro s i p hp
    simp only [State.encReqReady, State.encRspValid, State.encRspSignals, hp, Option.elim_some, Option.bind_some]
    exact ⟨reqReady_iff, rspSignals_of_rspValid, rspSignals_of_not_rspValid⟩
  · intro s i p hp
    simp only [State.decReqReady, State.decRspValid, State.decRspSignals, hp, Option.elim_some, Option.bind_some]
    exact ⟨reqReady_iff, rspSignals_of_rspValid, rspSignals_of_not_rspValid⟩

/-! ### Frames -/

/-- Replacing a port by one with the same offer and ready signal: the length, the other ports and those two signals stay. -/
theorem set_port_frame {κ ρ : Type} {ps : List (Port κ ρ)} {i : Nat} {p p' : Port κ ρ} (hp : ps[i]? = some p)
    (hreq : p'.req = p.req) (hready : p'.rspReady = p.rspReady) :
    (ps.set i p').length = ps.length ∧ (∀ k, k ≠ i → (ps.set i p')[k]? = ps[k]?) ∧
      (∀ q, ps[i]? = some q → ∃ q', (ps.set i p')[i]? = some q' ∧ q'.req = q.req ∧ q'.rspReady = q.rspReady) := by
  refine ⟨List.length_set, fun k hk => List.getElem?_set_ne hk.symm, fun q hq => ?_⟩
  obtain rfl : p = q := Option.some.inj (hp.symm.trans hq)
  exact ⟨p', List.getElem?_set_self (List.getElem?_eq_some_iff.mp hp).1, hreq, hready⟩

/-- Settles O20: the accept step writes one slot. -/
theorem vencFrame : Obligations.VencFrame := by
  intro s t e v h
  obtain ⟨r, hr⟩ := exec_of_target_enc (i := .venc e v) rfl
  obtain ⟨p, hp, rfl⟩ := acceptEnc_next (hr s ▸ h)
  exact ⟨rfl, rfl, rfl, rfl, rfl, rfl, fun _ => rfl, set_port_frame hp (accept_req ..) (accept_rspReady ..)⟩

/-- Settles O21: every instruction for a decoder is its accept step, which writes one slot. -/
theorem decoderInstructionsFrame : Obligations.DecoderInstructionsFrame := by
  intro s t i n htarget h
  obtain ⟨r, hr⟩ := exec_of_target_dec htarget
  obtain ⟨p, hp, rfl⟩ := acceptDec_next (hr s ▸ h)
  exact ⟨rfl, rfl, rfl, rfl, rfl, rfl, fun _ => rfl, set_port_frame hp (accept_req ..) (accept_rspReady ..)⟩

end Sys2Proof.Machine
end

section
/-! PROOF. The obligations on the strobes of an encoder's response (R45, R72) and on the host's buffers and streams (R41, R52, R58),
and that a response depends on its request alone (R53). -/

namespace Sys2Proof.Machine

/-! ### Strobes -/

/-- `MemWrite` adds one strobe. -/
theorem memWrite_strb_iff {k : Nat} (hk : k < 9) (b : Byte) (o : OutWindow) (j : Nat) :
    (memWrite k b o).strb.getLsbD j = true ↔ o.strb.getLsbD j = true ∨ k = j := by
  rw [memWrite_strb, BitVec.getLsbD_or, ← BitVec.twoPow_eq, BitVec.getLsbD_twoPow]
  simp [hk]

/-- Settles O33: the lane and the strobe bit that the write touches, and those it does not. -/
theorem memWriteSetsLaneAndStrobe : Obligations.MemWriteSetsLaneAndStrobe := by
  intro o k b hk
  refine ⟨lane_setLane_same o.data hk b, (memWrite_strb_iff hk b o k).mpr (.inr rfl), fun j hj hne => ⟨?_, ?_⟩⟩
  · exact lane_setLane_other o.data hj hne b
  · exact Bool.eq_iff_iff.mpr ((memWrite_strb_iff hk b o j).trans (or_iff_left hne.symm))

/-- The loop of R103 strobes the offsets below its counter. -/
theorem fillFlagged_strb_iff (j : Nat) :
    ∀ {n : Nat}, n ≤ 9 → ∀ (w : Value) (o : OutWindow),
      (fillFlagged n w o).strb.getLsbD j = true ↔ o.strb.getLsbD j = true ∨ j < n
  | 0, _, _, o => by simp [fillFlagged]
  | n + 1, hn, w, o => by
    rw [fillFlagged, fillFlagged_strb_iff j (by omega), memWrite_strb_iff (by omega), or_assoc]
    exact or_congr_right (by omega)

/-- Writing bytes from offset `k` on strobes as many offsets as there are bytes. -/
theorem writeBytes_strb_iff (j : Nat) :
    ∀ {k : Nat} {bs : List Byte}, k + bs.length ≤ 9 → ∀ o : OutWindow,
      (writeBytes k bs o).strb.getLsbD j = true ↔ o.strb.getLsbD j = true ∨ (k ≤ j ∧ j < k + bs.length)
  | k, [], _, o => by
    rw [writeBytes, List.length_nil, or_iff_left (by omega)]
  | k, b :: bs, h, o => by
    rw [List.length_cons] at h ⊢
    rw [writeBytes, writeBytes_strb_iff j (by omega), memWrite_strb_iff (by omega), or_assoc]
    exact or_congr_right (by omega)

theorem not_blank_strb (j : Nat) : ¬ OutWindow.blank.strb.getLsbD j = true := by simp

theorem lowGroups_length_le : ∀ (fuel : Nat) (w : Value), (lowGroups fuel w).length ≤ fuel
  | 0, _ => Nat.le_refl 0
  | fuel + 1, w => by
    rw [lowGroups, List.length_cons]
    split
    · simp
    · exact Nat.succ_le_succ (lowGroups_length_le fuel _)

theorem clearLowest_length (bs : List Byte) : (clearLowest bs).length = bs.length := by cases bs <;> rfl

/-- The strobes of a response name exactly the lanes below its length (R72). -/
def EncRsp.Strobed (r : EncRsp) : Prop := ∀ k, r.strb.getLsbD k = true ↔ k < r.len.toNat

theorem encodeOne_strobed (v : Value) : (encodeOne v).Strobed := by
  intro k
  rw [encodeOne, finish_strb, finish_len, memWrite_strb_iff (by decide), or_iff_right (not_blank_strb k), BitVec.toNat_ofNat]
  omega

theorem encodeTwo_strobed (v : Value) : (encodeTwo v).Strobed := by
  intro k
  rw [encodeTwo, finish_strb, finish_len, memWrite_strb_iff (by decide), memWrite_strb_iff (by decide),
    or_iff_right (not_blank_strb k), BitVec.toNat_ofNat]
  omega

theorem encodeNine_strobed (v : Value) : (encodeNine v).Strobed := by
  intro k
  rw [encodeNine, finish_strb, finish_len, fillFlagged_strb_iff k (by decide), memWrite_strb_iff (by decide),
    or_iff_right (not_blank_strb k), BitVec.toNat_ofNat]
  omega

theorem encodeGeneral_strobed (v : Value) : (encodeGeneral v).Strobed := by
  intro k
  have hlen : (clearLowest (lowGroups 8 v)).length ≤ 8 := clearLowest_length _ ▸ lowGroups_length_le 8 v
  rw [encodeGeneral, finish_strb, finish_len, writeBytes_strb_iff k (by rw [List.length_reverse]; omega),
    or_iff_right (not_blank_strb k), List.length_reverse, BitVec.toNat_ofNat]
  omega

/-- Every path of the encoder strobes the lanes below the length (R72, R109). -/
theorem vencode_strobed (v : Value) : (vencode v).Strobed := by
  unfold vencode
  split
  · exact encodeOne_strobed v
  · split
    · exact encodeTwo_strobed v
    · split
      · exact encodeNine_strobed v
      · exact encodeGeneral_strobed v

/-! ### Storing a response -/

theorem storeRsp_of_room {i : Nat} {s : State} {r : EncRsp} {room : Nat} (hr : lastEnc i s.received = some r) (hroom : 9 ≤ room)
    (all : Bool) (base : Nat) : storeRsp all i base room s =
      .next { s with hostMem := Memory.copyLanes s.hostMem base r.data (fun k => all || r.strb.getLsbD k) 0 9 } := by
  simp [storeRsp, hr, Nat.not_lt.mpr hroom]

theorem storeRsp_of_short {room : Nat} (h : room < 9) (all : Bool) (i base : Nat) (s : State) :
    storeRsp all i base room s = .refused (.shortBuffer room) := if_pos h

theorem len_le_nine_of_strobed {r : EncRsp} (h : r.Strobed) : r.len.toNat ≤ 9 := by
  have hnine : ¬ 9 < r.len.toNat := by
    rw [← h 9, BitVec.getLsbD_of_ge _ _ (Nat.le_refl 9)]
    exact Bool.false_ne_true
  omega

/-- Copying the strobed lanes of a response writes the lanes below its length and no other byte. -/
theorem read_copyLanes_strobed {r : EncRsp} (h : r.Strobed) (m : Memory) (base a : Nat) :
    Memory.read (Memory.copyLanes m base r.data (fun k => false || r.strb.getLsbD k) 0 9) a =
      if base ≤ a ∧ a < base + r.len.toNat then some (lane r.data (a - base)) else Memory.read m a := by
  have hnine := len_le_nine_of_strobed h
  rw [read_copyLanes]
  refine if_congr ?_ rfl rfl
  rw [Bool.false_or, h]
  omega

/-- Settles O52: the strobes name exactly the lanes below the length, and those are copied. -/
theorem storeHonoursStrobes : Obligations.StoreHonoursStrobes := by
  intro s i base room v hlast hroom
  refine ⟨_, storeRsp_of_room hlast hroom false base, fun k hk => ?_, fun a ha => ?_, rfl⟩
  · rw [read_copyLanes_strobed (vencode_strobed v), if_pos (by omega), Nat.add_sub_cancel_left]
  · rw [read_copyLanes_strobed (vencode_strobed v), if_neg ha]

/-! ### Windows from bytes -/

/-- Lane `k` of the packing of `n` bytes is byte `k`. -/
theorem getElem?_eq_lane_laneWord_take {bs : List Byte} {n k : Nat} (hn : n ≤ 9) (hk : k < n) (hlen : k < bs.length) :
    bs[k]? = some (lane (laneWord (bs.take n)) k) := by
  rw [lane_laneWord _ _ (by omega), List.getD_eq_getElem?_getD, List.getElem?_take_of_lt hk, List.getElem?_eq_getElem hlen]
  rfl

theorem getElem?_eq_lane_packWindow {bs : List Byte} {k : Nat} (hk : k < 9) (hlen : 9 ≤ bs.length) :
    bs[k]? = some (lane (packWindow bs) k) := getElem?_eq_lane_laneWord_take (Nat.le_refl 9) hk (by omega)

/-- The bytes of a value taken from the low 64 bits of a window are its lanes. -/
theorem extractLsb'_setWidth_eq_lane (w : Window) {k : Nat} (hk : k < 8) : (w.setWidth 64).extractLsb' (8 * k) 8 = lane w k := by
  apply BitVec.eq_of_getLsbD_eq
  intro j hj
  simp [lane, show 8 * k + j < 64 by omega]

/-- Settles O51: the length of the buffer decides, and the lanes of the record are its first bytes. -/
theorem byteDecoderRejectsOnlyShortBuffers : Obligations.ByteDecoderRejectsOnlyShortBuffers := by
  refine ⟨fun n r bs => ⟨fun hshort => ?_, fun hlen => ⟨packWindow bs, ?_, fun k hk => ?_⟩⟩,
    fun e bs => ⟨fun hshort => ?_, fun hlen => ⟨(laneWord (bs.take 8)).setWidth 64, ?_, fun k hk => ?_⟩⟩⟩
  · simp [decodeBytes, requestOfBytes, hshort, Except.map]
  · simp [decodeBytes, requestOfBytes, Nat.not_lt.mpr hlen, Except.map]
  · exact getElem?_eq_lane_packWindow hk hlen
  · simp [decodeBytes, requestOfBytes, hshort, Except.map]
  · simp [decodeBytes, requestOfBytes, Nat.not_lt.mpr hlen, Except.map, decode]
  · rw [extractLsb'_setWidth_eq_lane _ hk]
    exact getElem?_eq_lane_laneWord_take (by decide) hk (by omega)

/-! ### Streams -/

/-- Each byte read is the byte at its address. -/
theorem readBytes_getElem? (m : Memory) :
    ∀ (n x : Nat) {bs : List Byte}, Memory.readBytes m x n = .ok bs → ∀ k, k < n → bs[k]? = Memory.read m (x + k)
  | 0, _, _, _, _, hk => absurd hk (Nat.not_lt_zero _)
  | n + 1, x, bs, h, k, hk => by
    rw [Memory.readBytes] at h
    split at h
    · cases h
    · next b hb =>
      cases hrest : Memory.readBytes m (x + 1) n with
      | error y => rw [hrest] at h; cases h
      | ok rest =>
        rw [hrest] at h
        cases h
        cases k with
        | zero => exact hb.symm
        | succ k =>
          rw [List.getElem?_cons_succ, readBytes_getElem? m n (x + 1) hrest k (by omega), Nat.add_right_comm, Nat.add_assoc]

/-- The host's own bytes before `fin`, at most nine, if it has written them all. -/
theorem exists_real_bytes {s : State} {fin : Nat}
    (h : ∀ a, s.hostPos ≤ a → a < fin → (Memory.read s.hostMem a).isSome = true) :
    ∃ real, Memory.readBytes s.hostMem s.hostPos (min (fin - s.hostPos) 9) = .ok real ∧
      real.length = min (fin - s.hostPos) 9 := by
  obtain ⟨real, hreal⟩ := readBytes_isOk s.hostMem (min (fin - s.hostPos) 9) s.hostPos fun a hle hlt => h a hle (by omega)
  exact ⟨real, hreal, readBytes_length _ _ _ hreal⟩

theorem offerStream_of_short {i fin : Nat} {r : Reading} {pad real : List Byte} {s : State}
    (hreal : Memory.readBytes s.hostMem s.hostPos (min (fin - s.hostPos) 9) = .ok real) (h : (real ++ pad).length < 9) :
    offerStream i r fin pad s = .refused (.shortBuffer (real ++ pad).length) := by
  rw [offerStream, hreal]
  exact if_pos h

theorem offerStream_of_enough {i fin : Nat} {r : Reading} {pad real : List Byte} {s : State}
    (hreal : Memory.readBytes s.hostMem s.hostPos (min (fin - s.hostPos) 9) = .ok real) (h : 9 ≤ (real ++ pad).length) :
    offerStream i r fin pad s = offerDec i ⟨packWindow (real ++ pad), r⟩ s := by
  rw [offerStream, hreal]
  exact if_neg (Nat.not_lt.mpr h)

theorem offerDec_of_none {s : State} {i : Nat} {p : DecPort} (hp : s.decs[i]? = some p) (hreq : p.req = none) (o : Offer) :
    offerDec i o s = .next (s.setDec i { p with req := some o }) := by
  simp [offerDec, hp, Port.mayOffer, hreq]

theorem advance_of_lastDec {s : State} {i : Nat} {r : DecRsp} (h : lastDec i s.received = some r) :
    advance i s = .next { s with hostPos := s.hostPos + r.len.toNat } := by
  simp [advance, h]

/-- Settles O54: both transfers look at the number of bytes first. -/
theorem shortBuffersAreRefused : Obligations.ShortBuffersAreRefused := by
  refine ⟨fun all i base room s hroom => storeRsp_of_short hroom all i base s, fun i fin r pad s hshort hwritten => ?_⟩
  obtain ⟨real, hreal, hlen⟩ := exists_real_bytes hwritten
  have hall : (real ++ pad).length = (fin - s.hostPos) + pad.length := by rw [List.length_append]; omega
  rw [offerStream_of_short hreal (by omega), hall]

/-- Settles O55: lane `k` of the window is byte `k` of the host's bytes followed by the pad. -/
theorem streamWindowAndAdvance : Obligations.StreamWindowAndAdvance := by
  refine ⟨fun s i fin r pad p hp hreq henough hwritten => ?_, fun s i r h => advance_of_lastDec h⟩
  obtain ⟨real, hreal, hlen⟩ := exists_real_bytes hwritten
  have hnine : 9 ≤ (real ++ pad).length := by rw [List.length_append]; omega
  refine ⟨packWindow (real ++ pad), ?_, fun k hk hbefore => ?_, fun k hk hafter => ?_⟩
  · rw [offerStream_of_enough hreal hnine, offerDec_of_none hp hreq]
  · rw [← getElem?_eq_lane_packWindow hk hnine, List.getElem?_append_left (by omega),
      readBytes_getElem? _ _ _ hreal k (by omega)]
  · rw [← getElem?_eq_lane_packWindow hk hnine, List.getElem?_append_right (by omega), hlen, Nat.min_eq_left (by omega)]

/-! ### Responses depend on their request alone -/

/-- A port whose slot is set to Full holds the response, and exposes it outside reset (log 6). -/
theorem set_full_slot_and_rspSignals {κ ρ : Type} {ps : List (Port κ ρ)} {k : Nat} {p : Port κ ρ}
    (hp : ps[k]? = some p) (r : ρ) :
    ((ps.set k { p with slot := .full r })[k]?).map Port.slot = some (.full r) ∧
      ((ps.set k { p with slot := .full r })[k]?).bind (Port.rspSignals false) = some r := by
  rw [List.getElem?_set_self (List.getElem?_eq_some_iff.mp hp).1]
  exact ⟨rfl, rfl⟩

/-- An instruction for an encoder has one response, which every idle one outside reset holds and exposes after the accept. -/
theorem exec_of_idle_enc {i : Instr} {e : Nat} (h : target i = .enc e) :
    ∃ r, ∀ s : State, s.rst = false → s.idle (.enc e) →
      ∃ t, exec i s = .next t ∧ (t.encs[e]?).map Port.slot = some (.full r) ∧ t.encRspSignals e = some r := by
  obtain ⟨r, hr⟩ := exec_of_target_enc h
  refine ⟨r, fun s hrst ⟨p, hp, hslot⟩ => ⟨s.setEnc e { p with slot := .full r }, ?_, ?_⟩⟩
  · rw [hr, acceptEnc_of hp, hrst, accept_idle r hslot]
  · rw [State.encRspSignals, setEnc_rst, hrst]
    exact set_full_slot_and_rspSignals hp r

/-- Likewise for a decoder. -/
theorem exec_of_idle_dec {i : Instr} {n : Nat} (h : target i = .dec n) :
    ∃ r, ∀ s : State, s.rst = false → s.idle (.dec n) →
      ∃ t, exec i s = .next t ∧ (t.decs[n]?).map Port.slot = some (.full r) ∧ t.decRspSignals n = some r := by
  obtain ⟨r, hr⟩ := exec_of_target_dec h
  refine ⟨r, fun s hrst ⟨p, hp, hslot⟩ => ⟨s.setDec n { p with slot := .full r }, ?_, ?_⟩⟩
  · rw [hr, acceptDec_of hp, hrst, accept_idle r hslot]
  · rw [State.decRspSignals, setDec_rst, hrst]
    exact set_full_slot_and_rspSignals hp r

/-- Settles O59: the response of an instruction is chosen before the state. -/
theorem responseDependsOnRequestAlone : Obligations.ResponseDependsOnRequestAlone := by
  intro s u i hs hu hidle hidle'
  cases htarget : target i with
  | enc e =>
    rw [htarget] at hidle hidle'
    obtain ⟨r, hr⟩ := exec_of_idle_enc htarget
    obtain ⟨t, ht, hslot, hsignals⟩ := hr s hs hidle
    obtain ⟨x, hx, hslot', -⟩ := hr u hu hidle'
    refine ⟨t, x, ht, hx, fun k hk => ?_, nofun⟩
    cases hk
    exact ⟨hslot.trans hslot'.symm, by simp [hsignals]⟩
  | dec n =>
    rw [htarget] at hidle hidle'
    obtain ⟨r, hr⟩ := exec_of_idle_dec htarget
    obtain ⟨t, ht, hslot, hsignals⟩ := hr s hs hidle
    obtain ⟨x, hx, hslot', -⟩ := hr u hu hidle'
    refine ⟨t, x, ht, hx, nofun, fun k hk => ?_⟩
    cases hk
    exact ⟨hslot.trans hslot'.symm, by simp [hsignals]⟩

end Sys2Proof.Machine
end

section
/-! PROOF. The obligations on the records of the instructions: `encode` and `decode` invert each other (R70 to R87, R93). -/

namespace Sys2Proof.Machine

/-! ### The bytes of a format and their groups (R75) -/

theorem groupAt_eq_setWidth_lane (w : Window) (k : Nat) : groupAt w k = (lane w k).setWidth 7 := by
  simp [groupAt, lane, BitVec.setWidth_extractLsb'_of_le]

@[simp] theorem contFlag_flaggedByte (g : Group) : contFlag (flaggedByte g) = true := by
  simp [contFlag, flaggedByte, Config.flag]

@[simp] theorem contFlag_terminalByte (g : Group) : contFlag (terminalByte g) = false := by
  simp [contFlag, terminalByte]

@[simp] theorem flaggedByte_setWidth (g : Group) : (flaggedByte g).setWidth 7 = g := by
  simp [flaggedByte]

@[simp] theorem terminalByte_setWidth (g : Group) : (terminalByte g).setWidth 7 = g := by
  simp [terminalByte]

/-- A byte is its flag and its group. -/
theorem byte_ext {b b' : Byte} (hflag : contFlag b = contFlag b') (hgroup : b.setWidth 7 = b'.setWidth 7) : b = b' := by
  apply BitVec.eq_of_getLsbD_eq
  intro j hj
  obtain rfl | hlt : j = 7 ∨ j < 7 := by omega
  · exact hflag
  · simpa [hlt] using congrArg (fun g => BitVec.getLsbD g j) hgroup

theorem flaggedByte_groupAt {w : Window} {k : Nat} (h : contFlag (lane w k) = true) : flaggedByte (groupAt w k) = lane w k :=
  byte_ext (by simp [h]) (by simp [groupAt_eq_setWidth_lane])

theorem terminalByte_groupAt {w : Window} {k : Nat} (h : contFlag (lane w k) = false) : terminalByte (groupAt w k) = lane w k :=
  byte_ext (by simp [h]) (by simp [groupAt_eq_setWidth_lane])

/-! ### Bytes with the pad above them (R90) -/

theorem laneWord_getLsbD_of_ge {bs : List Byte} {j : Nat} (h : 8 * bs.length ≤ j) : (laneWord bs).getLsbD j = false := by
  by_cases hj : j < 72
  · have hlane := lane_laneWord bs (j / 8) (by omega)
    rw [List.getD_eq_default _ _ (by omega)] at hlane
    have hbit := lane_getLsbD (laneWord bs) (j / 8) (j % 8)
    rw [hlane, Nat.div_add_mod] at hbit
    simpa [Nat.mod_lt] using hbit.symm
  · exact BitVec.getLsbD_of_ge _ _ (by omega)

theorem lane_padded {m : Nat} {bs : List Byte} (pad : BitVec m) (hlen : bs.length ≤ 9) {k : Nat} (hk : k < bs.length) :
    lane (padded bs pad) k = bs.getD k 0 := by
  rw [← lane_laneWord bs k (by omega)]
  apply BitVec.eq_of_getLsbD_eq
  intro j hj
  simp [lane_getLsbD, padded, show 8 * k + j < 8 * bs.length by omega]

theorem groupAt_padded {m : Nat} {bs : List Byte} (pad : BitVec m) (hlen : bs.length ≤ 9) {k : Nat} (hk : k < bs.length) :
    groupAt (padded bs pad) k = (bs.getD k 0).setWidth 7 := by
  rw [groupAt_eq_setWidth_lane, lane_padded pad hlen hk]

theorem extractLsb'_padded {m start : Nat} {bs : List Byte} (pad : BitVec m) (hstart : start = 8 * bs.length)
    (hm : start + m = 72) : (padded bs pad).extractLsb' start m = pad := by
  subst hstart
  apply BitVec.eq_of_getLsbD_eq
  intro j hj
  rw [BitVec.getLsbD_extractLsb', padded, BitVec.getLsbD_or, laneWord_getLsbD_of_ge (by omega)]
  simp [hj, show 8 * bs.length + j < 72 by omega]

/-- Two windows with the same first lanes and the same bits above them are the same. -/
theorem window_ext_of_lanes_and_rest {w w' : Window} {n m : Nat} (hm : 8 * n + m = 72)
    (hlanes : ∀ k, k < n → lane w k = lane w' k) (hrest : w.extractLsb' (8 * n) m = w'.extractLsb' (8 * n) m) : w = w' := by
  apply window_ext
  intro k hk
  by_cases hkn : k < n
  · exact hlanes k hkn
  · apply BitVec.eq_of_getLsbD_eq
    intro j hj
    have hbit := congrArg (fun x => BitVec.getLsbD x (8 * k + j - 8 * n)) hrest
    have hin : 8 * k + j - 8 * n < m := by omega
    have hat : 8 * n + (8 * k + j - 8 * n) = 8 * k + j := by omega
    rw [lane_getLsbD, lane_getLsbD]
    simpa [hin, hat, hj] using hbit

/-- A window is its first bytes with its other bits as the pad. -/
theorem padded_extractLsb' {w : Window} {bs : List Byte} {start m : Nat} (hstart : start = 8 * bs.length) (hm : start + m = 72)
    (hbytes : ∀ k, k < bs.length → bs.getD k 0 = lane w k) : padded bs (w.extractLsb' start m) = w := by
  subst hstart
  exact window_ext_of_lanes_and_rest hm (fun k hk => (lane_padded _ (by omega) hk).trans (hbytes k hk))
    (extractLsb'_padded _ rfl hm)

/-- Flagged bytes and a last byte, its flag clear unless it is the ninth, are an encoding of that many bytes (R75, R87). -/
theorem endsAt_padded {m : Nat} {gs : List Group} {b : Byte} (hlen : gs.length ≤ 8) (hb : gs.length ≤ 7 → contFlag b = false)
    (pad : BitVec m) : EndsAt (padded (gs.map flaggedByte ++ [b]) pad) (gs.length + 1) where
  pos := by omega
  le_nine := by omega
  flagged k hk := by
    rw [lane_padded pad (by simp; omega) (by simp; omega)]
    simp [List.getElem?_append_left, show k < gs.length by omega]
  terminal h := by
    rw [lane_padded pad (by simp; omega) (by simp)]
    simp [hb (by omega)]

/-- The row of a window with fewer than eight flagged bytes, a terminal byte and the pad. -/
theorem formatOf_padded {m : Nat} (gs : List Group) (t : Group) (hlen : gs.length ≤ 7) (pad : BitVec m) :
    formatOf (padded (gs.map flaggedByte ++ [terminalByte t]) pad) = gs.length + 1 :=
  formatOf_eq (endsAt_padded (by omega) (fun _ => contFlag_terminalByte t) pad)

/-! ### `encode` and `decode` -/

/-- Settles O48: the flags of the record's bytes name its row, whose groups and pad are read back where they were laid. -/
theorem decodeInvertsEncode : Obligations.DecodeInvertsEncode := by
  intro i
  cases i with
  | venc e v => rfl
  | vdec n w => rfl
  | varintL1 n a pad =>
    have hrow : formatOf (padded [_] pad) = 1 := formatOf_padded [] a (by simp) pad
    simp [encode, decode, decodeWire, hrow, groupAt_padded, extractLsb'_padded]
  | varintL2 n a b pad =>
    have hrow : formatOf (padded [_, _] pad) = 2 := formatOf_padded [a] b (by simp) pad
    simp [encode, decode, decodeWire, hrow, groupAt_padded, extractLsb'_padded]
  | varintL3 n a b c pad =>
    have hrow : formatOf (padded [_, _, _] pad) = 3 := formatOf_padded [a, b] c (by simp) pad
    simp [encode, decode, decodeWire, hrow, groupAt_padded, extractLsb'_padded]
  | varintL4 n a b c d pad =>
    have hrow : formatOf (padded [_, _, _, _] pad) = 4 := formatOf_padded [a, b, c] d (by simp) pad
    simp [encode, decode, decodeWire, hrow, groupAt_padded, extractLsb'_padded]
  | varintL5 n a b c d e pad =>
    have hrow : formatOf (padded [_, _, _, _, _] pad) = 5 := formatOf_padded [a, b, c, d] e (by simp) pad
    simp [encode, decode, decodeWire, hrow, groupAt_padded, extractLsb'_padded]
  | varintL6 n a b c d e f pad =>
    have hrow : formatOf (padded [_, _, _, _, _, _] pad) = 6 := formatOf_padded [a, b, c, d, e] f (by simp) pad
    simp [encode, decode, decodeWire, hrow, groupAt_padded, extractLsb'_padded]
  | varintL7 n a b c d e f g pad =>
    have hrow : formatOf (padded [_, _, _, _, _, _, _] pad) = 7 := formatOf_padded [a, b, c, d, e, f] g (by simp) pad
    simp [encode, decode, decodeWire, hrow, groupAt_padded, extractLsb'_padded]
  | varintL8 n a b c d e f g h pad =>
    have hrow : formatOf (padded [_, _, _, _, _, _, _, _] pad) = 8 := formatOf_padded [a, b, c, d, e, f, g] h (by simp) pad
    simp [encode, decode, decodeWire, hrow, groupAt_padded, extractLsb'_padded]
  | varintL9 n a b c d e f g h i =>
    have hrow : formatOf (padded [_, _, _, _, _, _, _, _, _] 0#0) = 9 :=
      formatOf_eq (endsAt_padded (gs := [a, b, c, d, e, f, g, h]) (b := i) (by simp) (by simp) 0#0)
    have hlast : (padded [_, _, _, _, _, _, _, _, _] 0#0).extractLsb' 64 8 = i :=
      lane_padded (bs := [a, b, c, d, e, f, g, h].map flaggedByte ++ [i]) 0#0 (by simp) (k := 8) (by simp)
    simp [encode, decode, decodeWire, hrow, groupAt_padded, hlast]

/-- A window is the flagged bytes of its groups, the byte that ends its encoding and the rest as the pad. -/
theorem padded_groupAt {w : Window} {k start m : Nat} (h : EndsAt w (k + 1)) (hstart : start = 8 * (k + 1)) (hm : start + m = 72)
    {b : Byte} (hb : b = lane w k) :
    padded ((List.range k).map (fun j => flaggedByte (groupAt w j)) ++ [b]) (w.extractLsb' start m) = w := by
  refine padded_extractLsb' (by simpa using hstart) hm fun j hj => ?_
  rw [List.length_append, List.length_map, List.length_range, List.length_singleton] at hj
  obtain rfl | hjk : j = k ∨ j < k := by omega
  · simp [hb]
  · simp [List.getElem?_append_left, hjk, flaggedByte_groupAt (h.flagged j (by omega))]

/-- The record of the row that fits a window is the window. -/
theorem encode_decodeWire (n : Nat) (w : Window) : encode (decodeWire n w) = .dec n .format w := by
  obtain ⟨k, hk⟩ := exists_endsAt w
  have hpos := hk.pos
  have hnine := hk.le_nine
  rw [decodeWire, formatOf_eq hk]
  obtain rfl | h8 : k = 9 ∨ k ≤ 8 := by omega
  · have hnopad : w.extractLsb' 72 0 = 0#0 := BitVec.of_length_zero
    exact congrArg (Request.dec n .format) (hnopad ▸ padded_groupAt hk rfl rfl rfl)
  · have hterminal := terminalByte_groupAt (hk.terminal h8)
    interval_cases k
    all_goals exact congrArg (Request.dec n .format) (padded_groupAt hk rfl rfl hterminal)

/-- Settles O49: each byte of a window is its flag and its group, and the pad is the rest. -/
theorem encodeInvertsDecode : Obligations.EncodeInvertsDecode
  | .enc _ _ => rfl
  | .dec _ .operation _ => rfl
  | .dec n .format w => encode_decodeWire n w

/-- Settles O50: both readings run the accept step with `Decode` of the window. -/
theorem formatReadingEqualsOperation : Obligations.FormatReadingEqualsOperation := by
  intro n w s
  rw [exec_decode_dec, exec_decode_dec]

/-- Settles O47: the words are closed, and each clause is evaluated. -/
theorem tableWordsDecode : Obligations.TableWordsDecode :=
  ⟨rfl, rfl, by decide, by decide, by decide, by decide⟩

end Sys2Proof.Machine
end

section
/-! PROOF. The obligations on the nine formats as instructions: each completes with the sum of its shifted groups (R76 to R85). -/

namespace Sys2Proof.Machine

/-! ### The number that appended groups spell (R85) -/

theorem toNat_append_eq_add {m n : Nat} (x : BitVec m) (y : BitVec n) : (x ++ y).toNat = x.toNat * 2 ^ n + y.toNat := by
  rw [BitVec.toNat_append, ← Nat.shiftLeft_add_eq_or_of_lt y.isLt, Nat.shiftLeft_eq]

/-- A group string of at most 64 bits is not cut by a value's width. -/
theorem setWidth_append_toNat {m n : Nat} (h : m + n ≤ 64) (x : BitVec m) (y : BitVec n) :
    ((x ++ y).setWidth 64).toNat = x.toNat * 2 ^ n + y.toNat := by
  rw [BitVec.toNat_setWidth_of_le h, toNat_append_eq_add]

theorem valueL1_toNat (a : Group) : (valueL1 a).toNat = a.toNat := BitVec.toNat_setWidth_of_le (by decide)

theorem valueL2_toNat (a b : Group) : (valueL2 a b).toNat = a.toNat * 2 ^ 7 + b.toNat := setWidth_append_toNat (by decide) a b

theorem valueL3_toNat (a b c : Group) : (valueL3 a b c).toNat = a.toNat * 2 ^ 14 + b.toNat * 2 ^ 7 + c.toNat := by
  rw [valueL3, setWidth_append_toNat (by decide), toNat_append_eq_add]
  ring

theorem valueL4_toNat (a b c d : Group) :
    (valueL4 a b c d).toNat = a.toNat * 2 ^ 21 + b.toNat * 2 ^ 14 + c.toNat * 2 ^ 7 + d.toNat := by
  rw [valueL4, setWidth_append_toNat (by decide)]
  simp only [toNat_append_eq_add]
  ring

theorem valueL5_toNat (a b c d e : Group) :
    (valueL5 a b c d e).toNat = a.toNat * 2 ^ 28 + b.toNat * 2 ^ 21 + c.toNat * 2 ^ 14 + d.toNat * 2 ^ 7 + e.toNat := by
  rw [valueL5, setWidth_append_toNat (by decide)]
  simp only [toNat_append_eq_add]
  ring

theorem valueL6_toNat (a b c d e f : Group) :
    (valueL6 a b c d e f).toNat =
      a.toNat * 2 ^ 35 + b.toNat * 2 ^ 28 + c.toNat * 2 ^ 21 + d.toNat * 2 ^ 14 + e.toNat * 2 ^ 7 + f.toNat := by
  rw [valueL6, setWidth_append_toNat (by decide)]
  simp only [toNat_append_eq_add]
  ring

theorem valueL7_toNat (a b c d e f g : Group) :
    (valueL7 a b c d e f g).toNat =
      a.toNat * 2 ^ 42 + b.toNat * 2 ^ 35 + c.toNat * 2 ^ 28 + d.toNat * 2 ^ 21 + e.toNat * 2 ^ 14 + f.toNat * 2 ^ 7 +
        g.toNat := by
  rw [valueL7, setWidth_append_toNat (by decide)]
  simp only [toNat_append_eq_add]
  ring

theorem valueL8_toNat (a b c d e f g h : Group) :
    (valueL8 a b c d e f g h).toNat =
      a.toNat * 2 ^ 49 + b.toNat * 2 ^ 42 + c.toNat * 2 ^ 35 + d.toNat * 2 ^ 28 + e.toNat * 2 ^ 21 + f.toNat * 2 ^ 14 +
        g.toNat * 2 ^ 7 + h.toNat := by
  rw [valueL8, setWidth_append_toNat (by decide)]
  simp only [toNat_append_eq_add]
  ring

theorem valueL9_toNat (a b c d e f g h : Group) (i : Byte) :
    (valueL9 a b c d e f g h i).toNat =
      a.toNat * 2 ^ 57 + b.toNat * 2 ^ 50 + c.toNat * 2 ^ 43 + d.toNat * 2 ^ 36 + e.toNat * 2 ^ 29 + f.toNat * 2 ^ 22 +
        g.toNat * 2 ^ 15 + h.toNat * 2 ^ 8 + i.toNat := by
  rw [valueL9, setWidth_append_toNat (by decide)]
  simp only [toNat_append_eq_add]
  ring

/-! ### Completion -/

/-- On an idle decoder outside reset an accept whose response spells the number `x` fills the slot with `x` and the length. -/
theorem acceptDec_decRsp_of_idle {s : State} {n : Nat} {p : DecPort} (hrst : s.rst = false) (hp : s.decs[n]? = some p)
    (hslot : p.slot = .empty) {v : Value} {x : Nat} (hv : v.toNat = x) (len : Nat) :
    acceptDec n (decRsp v len) s = .next (s.setDec n { p with slot := .full ⟨BitVec.ofNat 64 x, BitVec.ofNat 4 len⟩ }) := by
  rw [acceptDec_of hp, hrst, accept_idle _ hslot, decRsp, ← hv, BitVec.ofNat_toNat, BitVec.setWidth_eq]

/-- Settles O17: each format is the accept step with the sum of its groups. -/
theorem shortFormatsComplete : Obligations.ShortFormatsComplete := by
  intro s n p hrst hp hslot a b c d
  exact ⟨fun _ => acceptDec_decRsp_of_idle hrst hp hslot (valueL1_toNat a) 1,
    fun _ => acceptDec_decRsp_of_idle hrst hp hslot (valueL2_toNat a b) 2,
    fun _ => acceptDec_decRsp_of_idle hrst hp hslot (valueL3_toNat a b c) 3,
    fun _ => acceptDec_decRsp_of_idle hrst hp hslot (valueL4_toNat a b c d) 4⟩

/-- Settles O18: likewise for five to eight groups. -/
theorem longFormatsComplete : Obligations.LongFormatsComplete := by
  intro s n p hrst hp hslot a b c d e f g h
  exact ⟨fun _ => acceptDec_decRsp_of_idle hrst hp hslot (valueL5_toNat a b c d e) 5,
    fun _ => acceptDec_decRsp_of_idle hrst hp hslot (valueL6_toNat a b c d e f) 6,
    fun _ => acceptDec_decRsp_of_idle hrst hp hslot (valueL7_toNat a b c d e f g) 7,
    fun _ => acceptDec_decRsp_of_idle hrst hp hslot (valueL8_toNat a b c d e f g h) 8⟩

/-- Settles O19: the ninth byte is appended whole, so the groups above it are shifted by one more bit. -/
theorem nineByteFormatCompletes : Obligations.NineByteFormatCompletes := by
  intro s n p hrst hp hslot a b c d e f g h i
  exact acceptDec_decRsp_of_idle hrst hp hslot (valueL9_toNat a b c d e f g h i) 9

end Sys2Proof.Machine
end

section
/-! PROOF. The obligations on the windows of the wire rows: the rows partition them (R87), and which of them are overlong (R86). -/

namespace Sys2Proof.Machine

/-! ### The length (R87) -/

/-- The first clear flag of a byte list, where its offset is known. -/
theorem firstClear_eq : ∀ {bs : List Byte} {i n : Nat}, 1 ≤ n → n ≤ bs.length + 1 →
    (∀ k, k + 1 < n → contFlag (bs.getD k 0) = true) → (n ≤ bs.length → contFlag (bs.getD (n - 1) 0) = false) →
    firstClear i bs = i + n
  | [], i, n, hpos, hlen, _, _ => by
    obtain rfl : n = 1 := by simp at hlen; omega
    rfl
  | b :: bs, i, 1, _, _, _, hclear => by
    have hb : contFlag b = false := hclear (by simp)
    simp [firstClear, hb]
  | b :: bs, i, n + 2, _, hlen, hset, hclear => by
    have hb : contFlag b = true := hset 0 (by omega)
    rw [List.length_cons] at hlen hclear
    rw [firstClear, if_pos hb, firstClear_eq (n := n + 1) (by omega) (by omega) (fun k hk => hset (k + 1) (by omega))
      (fun h => hclear (by omega))]
    omega

theorem flagBytes_getD (w : Window) {k : Nat} (hk : k < 8) : (flagBytes w).getD k 0 = lane w k := by
  simp [flagBytes, hk, memRead]

theorem windowLen_eq {w : Window} {n : Nat} (h : EndsAt w n) : windowLen w = n := by
  have hlen : (flagBytes w).length = 8 := rfl
  have hfirst : firstClear 0 (flagBytes w) = 0 + n := by
    refine firstClear_eq h.pos (hlen ▸ h.le_nine) (fun k hk => ?_) (fun hle => ?_)
    · rw [flagBytes_getD w (by have := h.le_nine; omega)]
      exact h.flagged k hk
    · rw [hlen] at hle
      rw [flagBytes_getD w (by have := h.pos; omega)]
      exact h.terminal hle
  rw [windowLen, hfirst, Nat.zero_add]

theorem vdecode_len_toNat {w : Window} {n : Nat} (h : EndsAt w n) : (vdecode w).len.toNat = n := by
  rw [vdecode_eq_rowRsp h]
  have hpos := h.pos
  have hnine := h.le_nine
  interval_cases n <;> rfl

/-- Settles O40: the row that fits is the one whose length the flags name. -/
theorem wireRowsPartitionWindows : Obligations.WireRowsPartitionWindows := by
  have hrow : ∀ n, 1 ≤ n → n ≤ 9 → ∃ r ∈ wireRows, r.len = n ∧ ∀ r' ∈ wireRows, r'.len = n → r' = r := by
    intro n hpos hnine
    interval_cases n <;> decide
  refine ⟨fun w => ?_, fun w => ?_⟩ <;> obtain ⟨n, hn⟩ := exists_endsAt w
  · obtain ⟨r, hr, hlen, hunique⟩ := hrow n hn.pos hn.le_nine
    exact ⟨r, hr, (fits_iff_len_eq hn hr).mpr hlen, hlen.trans (formatOf_eq hn).symm,
      fun r' hr' hfits => hunique r' hr' ((fits_iff_len_eq hn hr').mp hfits)⟩
  · rw [formatOf_eq hn, windowLen_eq hn]
    exact ⟨rfl, vdecode_len_toNat hn⟩

/-! ### The value (R85) -/

@[simp] theorem closedValue_zero (w : Window) : closedValue 0 w = 0 := rfl

/-- One more group is appended below the others. -/
theorem closedValue_succ (w : Window) {n : Nat} (h : n ≤ 7) :
    closedValue (n + 1) w = closedValue n w * 2 ^ 7 + (groupAt w n).toNat := by
  have hshift : ∀ k ∈ List.range n, (groupAt w k).toNat * 2 ^ (7 * (n + 1 - 1 - k)) =
      (groupAt w k).toNat * 2 ^ (7 * (n - 1 - k)) * 2 ^ 7 := by
    intro k hk
    rw [List.mem_range] at hk
    rw [Nat.mul_assoc, ← Nat.pow_add, show 7 * (n - 1 - k) + 7 = 7 * (n + 1 - 1 - k) by omega]
  rw [closedValue, if_neg (by omega), closedValue, if_neg (by omega), List.range_succ, List.map_append, List.sum_append,
    ← List.sum_map_mul_right, List.map_congr_left hshift]
  simp

/-- The ninth byte is appended whole (R137). -/
theorem closedValue_nine (w : Window) : closedValue 9 w = closedValue 8 w * 2 ^ 8 + (lane w 8).toNat := by
  have hshift : ∀ k ∈ List.range 8, (groupAt w k).toNat * 2 ^ (57 - 7 * k) =
      (groupAt w k).toNat * 2 ^ (7 * (8 - 1 - k)) * 2 ^ 8 := by
    intro k hk
    rw [List.mem_range] at hk
    rw [Nat.mul_assoc, ← Nat.pow_add, show 7 * (8 - 1 - k) + 8 = 57 - 7 * k by omega]
  rw [closedValue, if_pos rfl, closedValue, if_neg (by omega), ← List.sum_map_mul_right, List.map_congr_left hshift]

/-- The value of a window is the sum that its row gives (R85, R135, R137). -/
theorem vdecode_value_toNat {w : Window} {n : Nat} (h : EndsAt w n) : (vdecode w).value.toNat = closedValue n w := by
  rw [vdecode_eq_rowRsp h]
  have hpos := h.pos
  have hnine := h.le_nine
  obtain rfl | h2 : n = 1 ∨ 2 ≤ n := by omega
  · simp [rowRsp, decRsp, valueL1_toNat, closedValue_succ]
  · interval_cases n
    all_goals
      refine (BitVec.toNat_setWidth_of_le (by decide)).trans ?_
      simp only [toNat_append_eq_add]
      simp [closedValue_succ, closedValue_nine]

/-- Groups appended below do not decide how large the groups above them are. -/
theorem closedValue_add_lt_iff (w : Window) (m x : Nat) :
    ∀ {n : Nat}, m + n ≤ 8 → (closedValue (m + n) w < 2 ^ (x + 7 * n) ↔ closedValue m w < 2 ^ x)
  | 0, _ => Iff.rfl
  | n + 1, h => by
    rw [← closedValue_add_lt_iff w m x (n := n) (by omega), ← Nat.add_assoc, closedValue_succ w (by omega),
      show x + 7 * (n + 1) = x + 7 * n + 7 by omega, Nat.pow_add]
    have hgroup := (groupAt w (m + n)).isLt
    omega

/-- A window of two to eight bytes spells a number of `n - 1` groups exactly when its leading group is zero. -/
theorem closedValue_lt_iff_leading {w : Window} {n : Nat} (h2 : 2 ≤ n) (h8 : n ≤ 8) :
    closedValue n w < 2 ^ (7 * (n - 1)) ↔ groupAt w 0 = 0 := by
  have hdrop := closedValue_add_lt_iff w 1 0 (n := n - 1) (by omega)
  rw [Nat.zero_add, Nat.add_sub_cancel' (by omega : 1 ≤ n), closedValue_succ w (by omega)] at hdrop
  rw [hdrop, ← BitVec.toNat_inj]
  simp

/-- A window of nine bytes spells a number of 56 bits exactly when its leading group and bit 6 of its second are zero. -/
theorem closedValue_nine_lt_iff (w : Window) :
    closedValue 9 w < 2 ^ 56 ↔ groupAt w 0 = 0 ∧ (lane w 1).getLsbD 6 = false := by
  have hdrop : closedValue 8 w < 2 ^ 48 ↔ closedValue 2 w < 2 ^ 6 := closedValue_add_lt_iff w 2 6 (n := 6) (by decide)
  rw [closedValue_succ w (n := 1) (by decide), closedValue_succ w (n := 0) (by decide), closedValue_zero] at hdrop
  have hbit : (lane w 1).getLsbD 6 = (groupAt w 1).msb := by
    simp [BitVec.msb_eq_getLsbD_last, groupAt, lane]
  rw [hbit, BitVec.msb_eq_false_iff_two_mul_lt, ← BitVec.toNat_inj, closedValue_nine]
  have hlast := (lane w 8).isLt
  have hgroup := (groupAt w 1).isLt
  simp only [BitVec.ofNat_eq_ofNat, BitVec.toNat_ofNat]
  omega

/-! ### The lengths of a value (R88) -/

/-- The table of R88 by one bound: `n` bytes hold `n` groups. -/
theorem varintLen_le_iff (v : Value) {n : Nat} (hpos : 1 ≤ n) (h8 : n ≤ 8) : varintLen v ≤ n ↔ v.toNat < 2 ^ (7 * n) := by
  unfold varintLen
  interval_cases n <;> grind

theorem varintLen_pos (v : Value) : 1 ≤ varintLen v := by
  unfold varintLen
  grind

theorem varintLen_le_nine (v : Value) : varintLen v ≤ 9 := by
  unfold varintLen
  grind

theorem topByte_eq_zero_iff (v : Value) : v.extractLsb' 56 8 = 0 ↔ v.toNat < 2 ^ 56 := by
  rw [← BitVec.toNat_inj, BitVec.extractLsb'_toNat, Nat.shiftRight_eq_div_pow]
  have hv := v.isLt
  simp only [BitVec.ofNat_eq_ofNat, BitVec.toNat_ofNat]
  omega

/-! ### Overlong windows (R86) -/

/-- A window of `n` bytes is overlong exactly when its value is one of at most `n - 1` bytes. -/
theorem overlong_iff {w : Window} {n : Nat} (h : EndsAt w n) (h2 : 2 ≤ n) :
    Overlong w ↔ closedValue n w < 2 ^ (7 * (n - 1)) := by
  have hnine := h.le_nine
  rw [Overlong, vdecode_len_toNat h, ← vdecode_value_toNat h, ← varintLen_le_iff _ (by omega) (by omega)]
  omega

end Sys2Proof.Machine
end

section
/-! PROOF. The lanes of an encoder's response are the bytes of the closed form of R100, and the obligation on its fields (R72). -/

namespace Sys2Proof.Machine

/-! ### Bytes that the paths of the encoder write -/

@[simp] theorem contFlag_flaggedGroup (w : Value) : contFlag (flaggedGroup w) = true := by
  simp [contFlag, flaggedGroup, Config.flag]

@[simp] theorem contFlag_clearFlag (b : Byte) : contFlag (clearFlag b) = false := by
  simp [contFlag, clearFlag, Config.payloadMask]

@[simp] theorem flaggedGroup_setWidth (w : Value) : (flaggedGroup w).setWidth 7 = w.setWidth 7 := by
  have hmask : Config.payloadMask.setWidth 7 = BitVec.allOnes 7 := rfl
  have hflag : Config.flag.setWidth 7 = 0#7 := rfl
  rw [flaggedGroup, BitVec.setWidth_or, BitVec.setWidth_and, hmask, hflag, BitVec.and_allOnes, BitVec.or_zero,
    BitVec.setWidth_setWidth_of_le _ (by decide)]

@[simp] theorem clearFlag_setWidth (b : Byte) : (clearFlag b).setWidth 7 = b.setWidth 7 := by
  have hmask : Config.payloadMask.setWidth 7 = BitVec.allOnes 7 := rfl
  rw [clearFlag, BitVec.setWidth_and, hmask, BitVec.and_allOnes]

theorem flaggedGroup_shiftRight (v : Value) (s : Nat) : flaggedGroup (v >>> s) = flaggedByte (v.extractLsb' s 7) :=
  byte_ext (by simp) (by rw [flaggedGroup_setWidth, flaggedByte_setWidth]; rfl)

theorem clearFlag_flaggedGroup (v : Value) : clearFlag (flaggedGroup v) = terminalByte (v.extractLsb' 0 7) :=
  byte_ext (by simp) (by rw [clearFlag_setWidth, flaggedGroup_setWidth, terminalByte_setWidth]; rfl)

/-! ### The general path (R104) -/

/-- How many groups the loop of R100 produces. -/
theorem lt_lowGroups_length_iff : ∀ (fuel n : Nat) (w : Value),
    n < (lowGroups fuel w).length ↔ n < fuel ∧ (n = 0 ∨ 2 ^ (7 * n) ≤ w.toNat)
  | 0, n, w => by simp [lowGroups]
  | fuel + 1, 0, w => by simp [lowGroups]
  | fuel + 1, n + 1, w => by
    have hshift : (w >>> 7).toNat = w.toNat / 2 ^ 7 := by rw [BitVec.toNat_ushiftRight, Nat.shiftRight_eq_div_pow]
    rw [lowGroups, List.length_cons, Nat.succ_lt_succ_iff, Nat.mul_succ, Nat.pow_add]
    split
    · next hzero =>
      have hsmall : w.toNat / 2 ^ 7 = 0 := by rw [← hshift, hzero]; rfl
      have hpow := Nat.one_le_two_pow (n := 7 * n)
      simp; omega
    · next hne =>
      have hlarge : w.toNat / 2 ^ 7 ≠ 0 := fun h => hne (BitVec.eq_of_toNat_eq (hshift.trans h))
      rw [lt_lowGroups_length_iff fuel n, hshift]
      obtain rfl | hn := Nat.eq_zero_or_pos n
      · simp; omega
      · omega

theorem lowGroups_length {v : Value} (h : v.toNat < 2 ^ 56) : (lowGroups 8 v).length = varintLen v := by
  refine eq_of_forall_lt_iff fun n => ?_
  rw [lt_lowGroups_length_iff]
  have hpos := varintLen_pos v
  obtain rfl | hn := Nat.eq_zero_or_pos n
  · omega
  · have h8 := (varintLen_le_iff v (n := 8) (by decide) (by decide)).mpr h
    by_cases hn8 : n < 8
    · have := varintLen_le_iff v hn (Nat.le_of_lt hn8)
      omega
    · omega

theorem lowGroups_getElem? : ∀ {fuel i : Nat} {w : Value}, i < (lowGroups fuel w).length →
    (lowGroups fuel w)[i]? = some (flaggedGroup (w >>> (7 * i)))
  | 0, i, w, h => by simp [lowGroups] at h
  | fuel + 1, 0, w, _ => by simp [lowGroups]
  | fuel + 1, i + 1, w, h => by
    rw [lowGroups, List.length_cons, Nat.succ_lt_succ_iff] at h
    rw [lowGroups, List.getElem?_cons_succ]
    split at h
    · simp at h
    · next hne => rw [if_neg hne, lowGroups_getElem? h, ← BitVec.shiftRight_add, Nat.mul_succ, Nat.add_comm]

theorem lane_writeBytes {k : Nat} (hk : k < 9) : ∀ (j : Nat) (bs : List Byte) (o : OutWindow),
    lane (writeBytes j bs o).data k = if j ≤ k then bs.getD (k - j) (lane o.data k) else lane o.data k
  | j, [], o => by simp [writeBytes]
  | j, b :: bs, o => by
    rw [writeBytes, lane_writeBytes hk (j + 1) bs, memWrite_data]
    rcases Nat.lt_trichotomy k j with hlt | rfl | hgt
    · rw [lane_setLane_other _ hk (by omega), if_neg (by omega), if_neg (by omega)]
    · simp [lane_setLane_same _ hk]
    · rw [lane_setLane_other _ hk (by omega), if_pos (by omega), if_pos (by omega), show k - j = k - (j + 1) + 1 by omega,
        List.getD_cons_succ]

theorem clearLowest_getElem? (bs : List Byte) (i : Nat) :
    (clearLowest bs)[i]? = if i = 0 then bs[0]?.map clearFlag else bs[i]? := by
  cases bs <;> cases i <;> simp [clearLowest]

theorem lane_encodeGeneral {v : Value} (h : v.toNat < 2 ^ 56) {k : Nat} (hk : k < 9) :
    lane (encodeGeneral v).data k = if k < varintLen v then closedByte (varintLen v) v k else 0 := by
  have hlen : (clearLowest (lowGroups 8 v)).length = varintLen v := (clearLowest_length _).trans (lowGroups_length h)
  have h8 := (varintLen_le_iff v (n := 8) (by decide) (by decide)).mpr h
  have hgroup : ∀ i, i < varintLen v → (lowGroups 8 v)[i]? = some (flaggedGroup (v >>> (7 * i))) :=
    fun i hi => lowGroups_getElem? (by rwa [lowGroups_length h])
  rw [encodeGeneral, finish_data, lane_writeBytes hk, if_pos (Nat.zero_le k), Nat.sub_zero, List.getD_eq_getElem?_getD]
  by_cases hlt : k < varintLen v
  · rw [if_pos hlt, List.getElem?_reverse (hlen ▸ hlt), hlen, clearLowest_getElem?, hgroup 0 (by omega),
      hgroup (varintLen v - 1 - k) (by omega), closedByte, if_neg (show varintLen v ≠ 9 by omega)]
    by_cases hlast : k + 1 < varintLen v
    · rw [if_neg (show varintLen v - 1 - k ≠ 0 by omega), if_pos hlast, flaggedGroup_shiftRight]
      rfl
    · rw [if_pos (show varintLen v - 1 - k = 0 by omega), if_neg hlast, ← clearFlag_flaggedGroup]
      simp
  · rw [if_neg hlt, List.getElem?_eq_none (by rw [List.length_reverse, hlen]; omega)]
    simp

/-! ### The nine-byte path (R103) -/

theorem lane_fillFlagged {k : Nat} (hk : k < 9) : ∀ (n : Nat) (w : Value) (o : OutWindow),
    lane (fillFlagged n w o).data k = if k < n then flaggedGroup (w >>> (7 * (n - 1 - k))) else lane o.data k
  | 0, w, o => by simp [fillFlagged]
  | n + 1, w, o => by
    rw [fillFlagged, lane_fillFlagged hk n, memWrite_data]
    rcases Nat.lt_trichotomy k n with hlt | rfl | hgt
    · rw [if_pos hlt, if_pos (by omega), ← BitVec.shiftRight_add, show 7 + 7 * (n - 1 - k) = 7 * (n + 1 - 1 - k) by omega]
    · simp [lane_setLane_same _ hk]
    · rw [lane_setLane_other _ hk (by omega), if_neg (by omega), if_neg (by omega)]

theorem lane_encodeNine (v : Value) {k : Nat} (hk : k < 9) : lane (encodeNine v).data k = closedByte 9 v k := by
  rw [encodeNine, finish_data, lane_fillFlagged hk, memWrite_data, closedByte, if_pos rfl]
  by_cases hlast : k = 8
  · subst hlast
    simp [lane_setLane_same, BitVec.setWidth_eq_extractLsb']
  · rw [if_pos (by omega), if_neg hlast, ← BitVec.shiftRight_add, flaggedGroup_shiftRight,
      show 8 + 7 * (8 - 1 - k) = 57 - 7 * k by omega]

/-! ### The paths together (R100, R106) -/

theorem ushiftRight_seven_eq_zero_iff (w : Value) : w >>> 7 = 0 ↔ w.toNat < 2 ^ 7 := by
  rw [← BitVec.toNat_inj, BitVec.toNat_ushiftRight, Nat.shiftRight_eq_div_pow]
  simp only [BitVec.ofNat_eq_ofNat, BitVec.toNat_ofNat]
  omega

theorem encodeOne_eq_encodeGeneral {v : Value} (h : v.toNat < 2 ^ 7) : encodeOne v = encodeGeneral v := by
  have hgroups : lowGroups 8 v = [flaggedGroup v] := by rw [lowGroups, if_pos ((ushiftRight_seven_eq_zero_iff v).mpr h)]
  have hflag : contFlag (v.setWidth 8) = false := by
    rw [contFlag, BitVec.getLsbD_setWidth, BitVec.getLsbD, Nat.testBit_lt_two_pow h]
    rfl
  have hbyte : v.setWidth 8 = clearFlag (flaggedGroup v) := byte_ext (by simp [hflag]) (by simp)
  rw [encodeOne, hbyte, encodeGeneral, hgroups]
  rfl

theorem encodeTwo_eq_encodeGeneral {v : Value} (h1 : 2 ^ 7 ≤ v.toNat) (h2 : v.toNat < 2 ^ 14) :
    encodeTwo v = encodeGeneral v := by
  have hshift : (v >>> 7).toNat < 2 ^ 7 := by
    rw [BitVec.toNat_ushiftRight, Nat.shiftRight_eq_div_pow]
    omega
  have hgroups : lowGroups 8 v = [flaggedGroup v, flaggedGroup (v >>> 7)] := by
    rw [lowGroups, if_neg (by rw [ushiftRight_seven_eq_zero_iff]; omega), lowGroups,
      if_pos ((ushiftRight_seven_eq_zero_iff _).mpr hshift)]
  have hbyte : clearFlag (v.setWidth 8) = clearFlag (flaggedGroup v) := byte_ext (by simp) (by simp)
  rw [encodeTwo, hbyte, encodeGeneral, hgroups]
  rfl

theorem le_t1_iff (v : Value) : v ≤ Config.t1 ↔ v.toNat < 2 ^ 7 := BitVec.le_def.trans (Nat.lt_succ_iff (n := 127)).symm

theorem le_t2_iff (v : Value) : v ≤ Config.t2 ↔ v.toNat < 2 ^ 14 := BitVec.le_def.trans (Nat.lt_succ_iff (n := 16383)).symm

/-- Below 2^56 the fast paths may be dropped (R106). -/
theorem vencode_of_lt {v : Value} (h : v.toNat < 2 ^ 56) : vencode v = encodeGeneral v := by
  rw [vencode, if_neg (not_not.mpr ((topByte_eq_zero_iff v).mpr h))]
  simp only [le_t1_iff, le_t2_iff]
  split
  · next h1 => exact encodeOne_eq_encodeGeneral h1
  · next h1 =>
    split
    · next h2 => exact encodeTwo_eq_encodeGeneral (Nat.not_lt.mp h1) h2
    · rfl

theorem vencode_of_le {v : Value} (h : 2 ^ 56 ≤ v.toNat) : vencode v = encodeNine v := by
  have h1 : ¬ v ≤ Config.t1 := mt (le_t1_iff v).mp (by omega)
  have h2 : ¬ v ≤ Config.t2 := mt (le_t2_iff v).mp (by omega)
  have htop : v.extractLsb' 56 8 ≠ 0 := mt (topByte_eq_zero_iff v).mp (by omega)
  rw [vencode, if_neg h1, if_neg h2, if_pos htop]

theorem varintLen_eq_nine {v : Value} (h : 2 ^ 56 ≤ v.toNat) : varintLen v = 9 := by
  have h8 := varintLen_le_iff v (n := 8) (by decide) (by decide)
  have h9 := varintLen_le_nine v
  omega

theorem vencode_len_toNat (v : Value) : (vencode v).len.toNat = varintLen v := by
  obtain h | h := Nat.lt_or_ge v.toNat (2 ^ 56)
  · have h9 := varintLen_le_nine v
    rw [vencode_of_lt h, encodeGeneral, finish_len, clearLowest_length, lowGroups_length h, BitVec.toNat_ofNat]
    omega
  · rw [vencode_of_le h, varintLen_eq_nine h]
    rfl

/-- Lanes below the length hold the closed form, the others 0x00 (R72, R100). -/
theorem lane_vencode (v : Value) {k : Nat} (hk : k < 9) :
    lane (vencode v).data k = if k < varintLen v then closedByte (varintLen v) v k else 0 := by
  obtain h | h := Nat.lt_or_ge v.toNat (2 ^ 56)
  · rw [vencode_of_lt h, lane_encodeGeneral h hk]
  · rw [vencode_of_le h, varintLen_eq_nine h, if_pos hk, lane_encodeNine v hk]

/-- A window whose first lanes are the bytes of the closed form ends where they do. -/
theorem endsAt_of_closedByte {w : Window} {v : Value} (h : ∀ k, k < varintLen v → lane w k = closedByte (varintLen v) v k) :
    EndsAt w (varintLen v) where
  pos := varintLen_pos v
  le_nine := varintLen_le_nine v
  flagged k hk := by
    rw [h k (by omega), closedByte]
    have h9 := varintLen_le_nine v
    by_cases hn : varintLen v = 9
    · rw [if_pos hn, if_neg (by omega), contFlag_flaggedByte]
    · rw [if_neg hn, if_pos hk, contFlag_flaggedByte]
  terminal h8 := by
    have hpos := varintLen_pos v
    rw [h _ (by omega), closedByte, if_neg (by omega), if_neg (by omega), contFlag_terminalByte]

theorem endsAt_vencode (v : Value) : EndsAt (vencode v).data (varintLen v) :=
  endsAt_of_closedByte fun k hk => by rw [lane_vencode v (by have := varintLen_le_nine v; omega), if_pos hk]

theorem strobes_getLsbD (n k : Nat) : (strobes n).getLsbD k = (decide (k < 9) && decide (k < n)) := by
  rw [strobes, BitVec.getLsbD_ofNat, Nat.testBit_two_pow_sub_one]

/-- Settles O29: length, strobes and lanes are those of the closed form. -/
theorem encoderResponsesConform : Obligations.EncoderResponsesConform := by
  intro v
  have hlen := vencode_len_toNat v
  refine ⟨hlen ▸ ⟨varintLen_pos v, varintLen_le_nine v⟩, ?_, (formatOf_eq (endsAt_vencode v)).trans hlen.symm,
    fun k hk hk9 => ?_⟩
  · apply BitVec.eq_of_getLsbD_eq
    intro k hk
    rw [Bool.eq_iff_iff, vencode_strobed v k, strobes_getLsbD]
    simp [hk]
  · rw [lane_vencode v hk9, if_neg (by omega)]

end Sys2Proof.Machine
end

section
/-! PROOF. Windows made from an encoder's response decode to its value (R160), and the obligation on overlong windows (R86). -/

namespace Sys2Proof.Machine

/-! ### Windows made from a response -/

theorem lane_foldl_setLane (r : EncRsp) {k : Nat} (hk : k < 9) : ∀ (ks : List Nat) (w : Window),
    lane (ks.foldl (fun w j => if r.strb.getLsbD j then setLane w j (lane r.data j) else w) w) k =
      if k ∈ ks ∧ r.strb.getLsbD k = true then lane r.data k else lane w k
  | [], w => by simp
  | j :: ks, w => by
    rw [List.foldl_cons, lane_foldl_setLane r hk ks]
    by_cases hj : k = j
    · subst hj
      cases hs : r.strb.getLsbD k <;> simp [lane_setLane_same _ hk]
    · have hother : lane (if r.strb.getLsbD j then setLane w j (lane r.data j) else w) k = lane w k := by
        split
        · exact lane_setLane_other w hk hj _
        · rfl
      simp [hother, hj]

theorem lane_winOf (r : EncRsp) (pad : Window) {k : Nat} (hk : k < 9) :
    lane (winOf r pad) k = if r.strb.getLsbD k = true then lane r.data k else lane pad k := by
  rw [winOf, lane_foldl_setLane r hk]
  simp [hk]

theorem lane_winOf_vencode {v : Value} (pad : Window) {k : Nat} (hk : k < varintLen v) :
    lane (winOf (vencode v) pad) k = closedByte (varintLen v) v k := by
  have hk9 : k < 9 := by have := varintLen_le_nine v; omega
  rw [lane_winOf _ _ hk9, if_pos ((vencode_strobed v k).mpr (by rwa [vencode_len_toNat])), lane_vencode v hk9, if_pos hk]

theorem endsAt_winOf_vencode (v : Value) (pad : Window) : EndsAt (winOf (vencode v) pad) (varintLen v) :=
  endsAt_of_closedByte fun _ hk => lane_winOf_vencode pad hk

/-! ### The value of such a window -/

/-- Groups cut from a value from bit `s + 6` down spell its bits from there down. -/
theorem closedValue_of_groups {w : Window} {v : Value} {s : Nat} (hv : v.toNat < 2 ^ (s + 7)) :
    ∀ {n : Nat}, n ≤ 8 → 7 * n ≤ s + 7 → (∀ k, k < n → groupAt w k = v.extractLsb' (s - 7 * k) 7) →
      closedValue n w = v.toNat / 2 ^ (s + 7 - 7 * n)
  | 0, _, _, _ => (Nat.div_eq_of_lt hv).symm
  | n + 1, h8, hs, hgroups => by
    rw [closedValue_succ w (by omega), closedValue_of_groups hv (by omega) (by omega) fun k hk => hgroups k (by omega),
      hgroups n (by omega), BitVec.extractLsb'_toNat, Nat.shiftRight_eq_div_pow,
      show s + 7 - 7 * n = (s - 7 * n) + 7 by omega, show s + 7 - 7 * (n + 1) = s - 7 * n by omega, Nat.pow_add,
      ← Nat.div_div_eq_div_mul, Nat.mul_comm]
    exact Nat.div_add_mod ..

theorem groupAt_winOf_vencode {v : Value} (pad : Window) {k : Nat} (hk : k < varintLen v) (h8 : k < 8) :
    groupAt (winOf (vencode v) pad) k =
      v.extractLsb' ((if varintLen v = 9 then 57 else 7 * (varintLen v - 1)) - 7 * k) 7 := by
  rw [groupAt_eq_setWidth_lane, lane_winOf_vencode pad hk, closedByte]
  split
  · rw [if_neg (by omega), flaggedByte_setWidth]
  · split
    · rw [flaggedByte_setWidth, Nat.mul_sub]
    · rw [terminalByte_setWidth, show 7 * (varintLen v - 1) - 7 * k = 0 by omega]

/-- Decoding the encoding of a value, whatever the pad, gives the value (R160). -/
theorem vdecode_winOf_value (v : Value) (pad : Window) : (vdecode (winOf (vencode v) pad)).value = v := by
  apply BitVec.eq_of_toNat_eq
  rw [vdecode_value_toNat (endsAt_winOf_vencode v pad)]
  have hpos := varintLen_pos v
  have hle := varintLen_le_nine v
  obtain h9 | h8 : varintLen v = 9 ∨ varintLen v ≤ 8 := by omega
  · have hgroups := fun k (hk : k < 8) => groupAt_winOf_vencode (v := v) pad (k := k) (by omega) hk
    simp only [h9, if_true] at hgroups
    rw [h9, closedValue_nine, closedValue_of_groups (v := v) (s := 57) v.isLt (by decide) (by decide) hgroups,
      lane_winOf_vencode pad (by omega), h9, closedByte, if_pos rfl, if_pos rfl, BitVec.extractLsb'_toNat, Nat.mul_comm]
    exact Nat.div_add_mod ..
  · have hgroups := fun k (hk : k < varintLen v) => groupAt_winOf_vencode pad hk (by omega)
    simp only [show varintLen v ≠ 9 by omega, if_false] at hgroups
    have hv := (varintLen_le_iff v hpos h8).mp (Nat.le_refl _)
    rw [closedValue_of_groups (v := v) (s := 7 * (varintLen v - 1)) (by convert hv using 2; omega) h8 (by omega) hgroups,
      show 7 * (varintLen v - 1) + 7 - 7 * varintLen v = 0 by omega, Nat.pow_zero, Nat.div_one]

/-! ### Overlong windows -/

/-- A flagged byte with a zero group is 0x80. -/
theorem lane_eq_flag_iff {w : Window} {k : Nat} (h : contFlag (lane w k) = true) : lane w k = 0x80#8 ↔ groupAt w k = 0 := by
  rw [groupAt_eq_setWidth_lane]
  exact ⟨fun heq => by rw [heq]; rfl, fun heq => byte_ext (by rw [h]; rfl) (by rw [heq]; rfl)⟩

theorem not_overlong_of_vdecode_value {w : Window} {v : Value} (h : EndsAt w (varintLen v)) (hv : (vdecode w).value = v) :
    ¬ Overlong w := by
  rw [Overlong, hv, vdecode_len_toNat h]
  exact Nat.lt_irrefl _

/-- Settles O41: the leading group decides how large the value is, and the encoder's windows have the length of their value. -/
theorem overlongWindowsCharacterised : Obligations.OverlongWindowsCharacterised := by
  refine ⟨fun w h1 => ?_, fun w h2 h8 => ?_, fun w h9 => ?_, fun v pad => ?_⟩
  · rw [Overlong, h1]
    exact Nat.not_lt.mpr (varintLen_pos _)
  · obtain ⟨n, hn⟩ := exists_endsAt w
    rw [vdecode_len_toNat hn] at h2 h8
    rw [overlong_iff hn h2, closedValue_lt_iff_leading h2 h8, lane_eq_flag_iff (hn.flagged 0 h2)]
  · obtain ⟨n, hn⟩ := exists_endsAt w
    obtain rfl : n = 9 := (vdecode_len_toNat hn).symm.trans h9
    rw [topByte_eq_zero_iff, vdecode_value_toNat hn, overlong_iff hn (by decide)]
    exact ⟨closedValue_nine_lt_iff w, Iff.rfl⟩
  · exact not_overlong_of_vdecode_value (endsAt_winOf_vencode v pad) (vdecode_winOf_value v pad)

end Sys2Proof.Machine
end

section
/-! PROOF. The obligations on the encoder (R100 to R113): the fields of its response, by the paths' ranges and against the closed
form, and what a host that stores all nine lanes leaves in memory (R111). -/

namespace Sys2Proof.Machine

/-! ### The fields of the response (R88, R109) -/

theorem vencode_len (v : Value) : (vencode v).len = BitVec.ofNat 4 (varintLen v) := by
  rw [← vencode_len_toNat, BitVec.ofNat_toNat, BitVec.setWidth_eq]

theorem vencode_strb (v : Value) : (vencode v).strb = strobes (varintLen v) := by
  rw [(encoderResponsesConform v).strobed, vencode_len_toNat]

/-- Lanes below the length hold the bytes of the closed form. -/
theorem lane_vencode_of_lt {v : Value} {k : Nat} (hk : k < varintLen v) :
    lane (vencode v).data k = closedByte (varintLen v) v k := by
  have h9 := varintLen_le_nine v
  rw [lane_vencode v (by omega), if_pos hk]

/-- The length of a value from its two neighbouring bounds in the table of R88. -/
theorem varintLen_eq {v : Value} {n : Nat} (hpos : 1 ≤ n) (h8 : n ≤ 8) (hlow : n = 1 ∨ 2 ^ (7 * (n - 1)) ≤ v.toNat)
    (hhigh : v.toNat < 2 ^ (7 * n)) : varintLen v = n := by
  have hle := (varintLen_le_iff v hpos h8).mpr hhigh
  have hv := varintLen_pos v
  obtain rfl | hlow := hlow
  · omega
  · by_contra hne
    have hless := (varintLen_le_iff v (n := n - 1) (by omega) (by omega)).mp (by omega)
    omega

/-! ### The bytes of the closed form (R75, R85) -/

/-- In 1 to 8 bytes the last one holds the lowest group, flag clear. -/
theorem closedByte_last {n : Nat} (h8 : n ≤ 8) (v : Value) {j : Nat} (hj : j + 1 = n) :
    closedByte n v j = terminalByte (v.extractLsb' 0 7) := by
  rw [closedByte, if_neg (by omega), if_neg (by omega)]

/-- In 1 to 8 bytes the others hold the higher groups, flag set. -/
theorem closedByte_before_last {n : Nat} (h8 : n ≤ 8) (v : Value) {j : Nat} (hj : j + 1 < n) :
    closedByte n v j = flaggedByte (v.extractLsb' (7 * (n - 1 - j)) 7) := by
  rw [closedByte, if_neg (by omega), if_pos hj]

theorem flaggedByte_extractLsb' (v : Value) (s : Nat) :
    flaggedByte (v.extractLsb' s 7) = (((v >>> s) &&& 0x7F#64) ||| 0x80#64).setWidth 8 := by
  rw [← flaggedGroup_shiftRight, BitVec.setWidth_or, BitVec.setWidth_and]
  rfl

theorem terminalByte_extractLsb' (v : Value) : terminalByte (v.extractLsb' 0 7) = (v &&& 0x7F#64).setWidth 8 := by
  have hclear : (v &&& 0x7F#64).setWidth 8 = clearFlag (v.setWidth 8) := BitVec.setWidth_and
  rw [hclear]
  refine byte_ext (by simp) ?_
  rw [terminalByte_setWidth, clearFlag_setWidth, BitVec.setWidth_setWidth_of_le _ (by decide),
    ← BitVec.setWidth_eq_extractLsb' (by decide)]

/-- A value of one group is its own terminal byte. -/
theorem terminalByte_of_lt {v : Value} (h : v.toNat < 2 ^ 7) : terminalByte (v.extractLsb' 0 7) = v.setWidth 8 := by
  have hmask : v &&& 0x7F#64 = v := by
    apply BitVec.eq_of_toNat_eq
    rw [BitVec.toNat_and]
    exact (Nat.and_two_pow_sub_one_eq_mod v.toNat 7).trans (Nat.mod_eq_of_lt h)
  rw [terminalByte_extractLsb', hmask]

/-! ### The encoder and its closed form (R106) -/

theorem lane_closedEncode (v : Value) {k : Nat} (hk : k < 9) :
    lane (closedEncode v).data k = if k < varintLen v then closedByte (varintLen v) v k else 0 := by
  have h9 := varintLen_le_nine v
  rw [closedEncode, packWindow, List.take_of_length_le (by simpa using h9), lane_laneWord _ _ hk]
  by_cases hlt : k < varintLen v <;> simp [List.getD_eq_getElem?_getD, hlt]

/-- Responses with the same three fields are the same. -/
theorem encRsp_ext {r r' : EncRsp} (hdata : r.data = r'.data) (hstrb : r.strb = r'.strb) (hlen : r.len = r'.len) : r = r' := by
  cases r
  cases r'
  exact (EncRsp.mk.injEq ..).mpr ⟨hdata, hstrb, hlen⟩

/-- Settles O26: the two responses have the same lanes, strobes and length, and the loop alone gives the fast paths' responses. -/
theorem encoderIsItsClosedForm : Obligations.EncoderIsItsClosedForm := by
  refine ⟨fun v => ?_, fun v h => (vencode_of_lt h).symm⟩
  have hdata : (vencode v).data = (closedEncode v).data :=
    window_ext fun k hk => (lane_vencode v hk).trans (lane_closedEncode v hk).symm
  exact encRsp_ext hdata (vencode_strb v) (vencode_len v)

/-! ### The four paths (R101 to R104) -/

/-- Settles O22: the only byte is the lowest group, which is the whole value. -/
theorem oneByteEncoding : Obligations.OneByteEncoding := by
  intro v h
  have hlt : v.toNat < 2 ^ 7 := by omega
  have hn : varintLen v = 1 := varintLen_eq (by decide) (by decide) (.inl rfl) hlt
  have hlane : lane (vencode v).data 0 = terminalByte (v.extractLsb' 0 7) := by
    rw [lane_vencode_of_lt (by omega), closedByte_last (by omega) v hn.symm]
  refine ⟨hlane.trans (terminalByte_of_lt hlt), hlane ▸ contFlag_terminalByte _, ?_, ?_⟩
  · rw [vencode_len, hn]
    rfl
  · rw [vencode_strb, hn]
    rfl

/-- Settles O23: the high group flagged, then the lowest group. -/
theorem twoByteEncoding : Obligations.TwoByteEncoding := by
  intro v hlow hhigh
  have hn : varintLen v = 2 := varintLen_eq (by decide) (by decide) (.inr (by omega)) (by omega)
  refine ⟨?_, ?_, ?_, ?_⟩
  · rw [lane_vencode_of_lt (by omega), hn, closedByte_before_last (by decide) v (by decide)]
    exact flaggedByte_extractLsb' v 7
  · rw [lane_vencode_of_lt (by omega), closedByte_last (by omega) v hn.symm, terminalByte_extractLsb']
  · rw [vencode_len, hn]
    rfl
  · rw [vencode_strb, hn]
    rfl

/-- Settles O24: a nonzero top byte is the bound, and above it the closed form has nine bytes. -/
theorem nineByteEncoding : Obligations.NineByteEncoding := by
  refine fun v => ⟨?_, fun h => ?_⟩
  · rw [ne_eq, topByte_eq_zero_iff]
    omega
  · have hn := varintLen_eq_nine h
    have hlane : ∀ i, i < 9 → lane (vencode v).data i = closedByte 9 v i := fun i hi => by
      rw [lane_vencode_of_lt (by omega), hn]
    refine ⟨hlane 8 (by decide), fun i hi => ?_, ?_, ?_⟩
    · rw [hlane i (by omega), closedByte, if_pos rfl, if_neg (by omega)]
    · rw [vencode_len, hn]
      rfl
    · rw [vencode_strb, hn]
      rfl

/-- Settles O25: between the bounds the length is 3 to 8, and the bytes are those of the closed form. -/
theorem generalEncoding : Obligations.GeneralEncoding := by
  intro v hlow hhigh
  have h3 : 3 ≤ varintLen v := by
    have h2 := varintLen_le_iff v (n := 2) (by decide) (by decide)
    omega
  have h8 := (varintLen_le_iff v (n := 8) (by decide) (by decide)).mpr hhigh
  refine ⟨h3, h8, vencode_len v, vencode_strb v, fun j hj => ?_⟩
  rw [lane_vencode_of_lt hj]
  split
  · next hlast => exact closedByte_last h8 v hlast
  · next hlast => exact closedByte_before_last h8 v (by omega)

/-! ### The clear flag, the length and minimality (R107, R109, R113) -/

/-- Settles O27: the encoding ends at its length, and its last byte is the terminal one of the closed form. -/
theorem lowestGroupCarriesClearFlag : Obligations.LowestGroupCarriesClearFlag := by
  intro v h8
  rw [vencode_len_toNat] at h8 ⊢
  have hends := endsAt_vencode v
  have hpos := varintLen_pos v
  refine ⟨fun k hk => ⟨fun hclear => ?_, fun hlast => ?_⟩, ?_, _, rfl⟩
  · by_contra hne
    rw [hends.flagged k (by omega)] at hclear
    cases hclear
  · obtain rfl : k = varintLen v - 1 := by omega
    exact hends.terminal h8
  · rw [groupAt_eq_setWidth_lane, lane_vencode_of_lt (by omega), closedByte_last h8 v (by omega), terminalByte_setWidth]

/-- Settles O28: the strobes are those of the length, and a window that holds the encoding ends where it does. -/
theorem encoderLengthAndStrobes : Obligations.EncoderLengthAndStrobes := by
  intro v
  have h9 := varintLen_le_nine v
  refine ⟨vencode_len_toNat v, varintLen_pos v, h9, ?_, fun pad => ?_⟩
  · have hpow : 2 ^ varintLen v ≤ 2 ^ 9 := Nat.pow_le_pow_right (by decide) h9
    rw [vencode_strb, strobes, BitVec.toNat_ofNat]
    omega
  · apply BitVec.eq_of_toNat_eq
    rw [vdecode_len_toNat (endsAt_winOf_vencode v pad), vencode_len_toNat]

/-- `n` groups spell a number of `7 * n` bits. -/
theorem closedValue_lt (w : Window) {n : Nat} (h8 : n ≤ 8) : closedValue n w < 2 ^ (7 * n) := by
  have hbound := (closedValue_add_lt_iff w 0 0 (n := n) (by omega)).mpr Nat.zero_lt_one
  rwa [Nat.zero_add, Nat.zero_add] at hbound

/-- Settles O30: up to eight bytes decode to a value that their number of groups holds. -/
theorem encoderIsMinimal : Obligations.EncoderIsMinimal := by
  rintro v w rfl
  refine ⟨?_, vencode_len_toNat _⟩
  obtain ⟨n, hn⟩ := exists_endsAt w
  rw [vdecode_len_toNat hn]
  by_cases h8 : n ≤ 8
  · rw [varintLen_le_iff _ hn.pos h8, vdecode_value_toNat hn]
    exact closedValue_lt w h8
  · have h9 := varintLen_le_nine (vdecode w).value
    omega

/-! ### Storing all nine lanes, and completion (R100, R111) -/

/-- Copying all nine lanes writes the nine bytes from the base on and no other byte. -/
theorem read_copyLanes_all (m : Memory) (base a : Nat) (data : Window) (strobed : Nat → Bool) :
    Memory.read (Memory.copyLanes m base data (fun k => true || strobed k) 0 9) a =
      if base ≤ a ∧ a < base + 9 then some (lane data (a - base)) else Memory.read m a := by
  rw [read_copyLanes]
  exact if_congr (by simp) rfl rfl

/-- Settles O53: all nine lanes are copied, and those past the length are 0x00 (R72). -/
theorem storeAllLanesZeroesTail : Obligations.StoreAllLanesZeroesTail := by
  intro s i base room v hlast hroom
  have h9 := len_le_nine_of_strobed (vencode_strobed v)
  refine ⟨_, storeRsp_of_room hlast hroom true base, fun k hk => ?_, fun k hle hk => ?_, fun a ha => ?_, rfl⟩
  · rw [read_copyLanes_all, if_pos (by omega), Nat.add_sub_cancel_left]
  · rw [read_copyLanes_all, if_pos (by omega), Nat.add_sub_cancel_left, (encoderResponsesConform v).unstrobed k hle hk]
  · rw [read_copyLanes_all, if_neg ha]

/-- Settles O15: `VENC` is the accept step of its engine, with the response `Encode(v)`. -/
theorem vencCompletes : Obligations.VencCompletes := by
  intro s e v p hrst hp hslot
  have haccept : exec (.venc e v) s = acceptEnc e (vencode v) s := rfl
  rw [haccept, acceptEnc_of hp, hrst, accept_idle _ hslot]

end Sys2Proof.Machine
end

section
/-! PROOF. The obligations on the decoder (R130 to R144): its loop against the closed form, its stages, the bytes that decide its
response, and its completion. -/

namespace Sys2Proof.Machine

/-! ### The response by the length that the flags give (R85, R87) -/

/-- A byte whose flag is clear is its payload group (R75). -/
theorem lane_setWidth_of_terminal {w : Window} {k : Nat} (h : contFlag (lane w k) = false) :
    (lane w k).setWidth 64 = (groupAt w k).setWidth 64 := by
  rw [← terminalByte_groupAt h, terminalByte, BitVec.setWidth_setWidth (by decide)]

theorem closedValue_of_le_eight (w : Window) {n : Nat} (h8 : n ≤ 8) :
    closedValue n w = ((List.range n).map fun k => (groupAt w k).toNat * 2 ^ (7 * (n - 1 - k))).sum :=
  if_neg (by omega)

theorem vdecode_eq_closed {w : Window} {n : Nat} (h : EndsAt w n) :
    vdecode w = ⟨BitVec.ofNat 64 (closedValue n w), BitVec.ofNat 4 n⟩ := by
  rw [← vdecode_value_toNat h, BitVec.ofNat_toNat, BitVec.setWidth_eq, ← vdecode_len_toNat h, BitVec.ofNat_toNat,
    BitVec.setWidth_eq]

/-- Settles O37: both sides take the length from the flags and spell the value of the same groups. -/
theorem decoderIsItsClosedForm : Obligations.DecoderIsItsClosedForm := by
  intro w
  obtain ⟨n, hn⟩ := exists_endsAt w
  rw [vdecode_eq_closed hn, closedDecode, windowLen_eq hn]

/-- Settles O38: up to eight bytes spell a value that their number of groups holds. -/
theorem decoderLengthAndBound : Obligations.DecoderLengthAndBound := by
  intro w
  obtain ⟨n, hn⟩ := exists_endsAt w
  rw [vdecode_len_toNat hn, vdecode_value_toNat hn]
  exact ⟨hn.pos, hn.le_nine, closedValue_lt w⟩

/-! ### The stages (R132 to R137) -/

/-- Settles O34: the loop stops at the first byte whose flag is clear. -/
theorem decodeStagesOneToThree : Obligations.DecodeStagesOneToThree := by
  refine fun w => ⟨fun h0 => ?_, fun h0 h1 => ?_, fun h0 h1 h2 => ?_⟩
  · rw [vdecode_first_terminal h0, ← lane_setWidth_of_terminal h0]
    rfl
  · rw [vdecode_first_flagged h0, decodeLoop_terminal h1, clearFlag_lane_setWidth, ← lane_setWidth_of_terminal h1]
    rfl
  · rw [vdecode_first_flagged h0, decodeLoop_flagged h1, decodeLoop_terminal h2, clearFlag_lane_setWidth,
      clearFlag_lane_setWidth, BitVec.shiftLeft_or_distrib, ← BitVec.shiftLeft_add]
    rfl

/-- Settles O35: the flags say that the window is one of `n` bytes. -/
theorem decodeStagesFourToEight : Obligations.DecodeStagesFourToEight := by
  intro w n h4 h8 hflagged hterminal
  have hn : EndsAt w n := ⟨by omega, by omega, hflagged, fun _ => hterminal⟩
  rw [vdecode_value_toNat hn, closedValue_of_le_eight w h8]
  exact ⟨rfl, vdecode_len_toNat hn⟩

/-- Settles O36: eight flagged bytes make a window of nine bytes. -/
theorem decodeStageNine : Obligations.DecodeStageNine := by
  intro w hflagged
  have h9 : EndsAt w 9 := ⟨by decide, by decide, fun k hk => hflagged k (by omega), nofun⟩
  exact ⟨vdecode_value_toNat h9, BitVec.eq_of_toNat_eq (vdecode_len_toNat h9)⟩

/-! ### The bytes that decide the response (R138, R144) -/

/-- The bytes of an encoding decide where it ends. -/
theorem EndsAt.of_lanes_eq {w w' : Window} {n : Nat} (h : EndsAt w n) (heq : ∀ k, k < n → lane w' k = lane w k) :
    EndsAt w' n where
  pos := h.pos
  le_nine := h.le_nine
  flagged k hk := by
    rw [heq k (by omega)]
    exact h.flagged k hk
  terminal h8 := by
    rw [heq (n - 1) (by have := h.pos; omega)]
    exact h.terminal h8

/-- The bytes of an encoding decide the value that it spells. -/
theorem closedValue_congr {w w' : Window} {n : Nat} (heq : ∀ k, k < n → lane w' k = lane w k) :
    closedValue n w' = closedValue n w := by
  have hgroup : ∀ k, k < n → groupAt w' k = groupAt w k := fun k hk => by
    rw [groupAt_eq_setWidth_lane, groupAt_eq_setWidth_lane, heq k hk]
  unfold closedValue
  split
  · next h9 =>
    rw [heq 8 (by omega)]
    exact congrArg (List.sum · + _) (List.map_congr_left fun k hk => by rw [hgroup k (by have := List.mem_range.mp hk; omega)])
  · exact congrArg List.sum (List.map_congr_left fun k hk => by rw [hgroup k (List.mem_range.mp hk)])

/-- Settles O39: the bytes consumed decide both the length and the value. -/
theorem padBytesHaveNoEffect : Obligations.PadBytesHaveNoEffect := by
  intro w w' heq
  obtain ⟨n, hn⟩ := exists_endsAt w
  rw [vdecode_len_toNat hn] at heq
  rw [vdecode_eq_closed hn, vdecode_eq_closed (hn.of_lanes_eq heq), closedValue_congr heq]

/-- Settles O46: the encoding of a value is a window for it, and the byte 0x00 decodes alike whatever its pad. -/
theorem decoderIsOntoNotInjective : Obligations.DecoderIsOntoNotInjective := by
  refine ⟨fun v => ⟨winOf (vencode v) 0, vdecode_winOf_value v 0⟩, 0x0100#72, 0x0000#72, by decide, ?_⟩
  have hlen : (vdecode 0x0000#72).len.toNat = 1 := by decide
  refine padBytesHaveNoEffect _ _ fun k hk => ?_
  obtain rfl : k = 0 := by omega
  decide

/-! ### Completion (R130) -/

/-- Settles O16: `VDEC` is the accept step of its engine, with the response `Decode(B)`. -/
theorem vdecCompletes : Obligations.VdecCompletes := by
  intro s n w p hrst hp hslot
  have haccept : exec (.vdec n w) s = acceptDec n (vdecode w) s := rfl
  rw [haccept, acceptDec_of hp, hrst, accept_idle _ hslot]

end Sys2Proof.Machine
end

section
/-! PROOF. The obligations that relate the two functions (R160 to R168): the round trip, and windows that decode and encode again. -/

namespace Sys2Proof.Machine

/-! ### Encode, then decode (R160, R162, R164, R168) -/

/-- Settles O43: a window that holds an encoding decodes to its value, and ends where the encoding does. -/
theorem roundTrip : Obligations.RoundTrip := by
  intro v pad
  obtain ⟨-, -, -, -, hlen⟩ := encoderLengthAndStrobes v
  exact (DecRsp.mk.injEq ..).mpr ⟨vdecode_winOf_value v pad, hlen pad⟩

/-- Settles O44: what is encoded again is the value itself. -/
theorem reencodingIsIdempotent : Obligations.ReencodingIsIdempotent := by
  intro v pad
  rw [vdecode_winOf_value]

/-- A larger value needs at least as many bytes (R88). -/
theorem varintLen_mono {v v' : Value} (h : v.toNat ≤ v'.toNat) : varintLen v ≤ varintLen v' := by
  obtain h9 | h8 := Nat.lt_or_ge 8 (varintLen v')
  · exact (varintLen_le_nine v).trans h9
  · rw [varintLen_le_iff v (varintLen_pos v') h8]
    exact h.trans_lt ((varintLen_le_iff v' (varintLen_pos v') h8).mp (Nat.le_refl _))

/-- Settles O31: the table of lengths is one of rising bounds, and decoding recovers the value from its encoding. -/
theorem lengthMonotoneEncodeInjective : Obligations.LengthMonotoneEncodeInjective := by
  refine ⟨fun v v' h => ?_, fun v v' h => ?_⟩
  · rw [vencode_len_toNat, vencode_len_toNat]
    exact ⟨varintLen_mono h, varintLen_mono h⟩
  · rw [← vdecode_winOf_value v 0, h, vdecode_winOf_value]

/-- Settles O32: with bit 63 set a value is at least 2^56, past the bound of eight bytes. -/
theorem negativeNumbersTakeNineBytes : Obligations.NegativeNumbersTakeNineBytes := by
  refine ⟨fun v pad hneg => ⟨?_, vdecode_winOf_value v pad⟩, by decide⟩
  have hv : 2 ^ 56 ≤ v.toNat := by
    rw [BitVec.toInt_neg_iff] at hneg
    omega
  rw [vencode_len, varintLen_eq_nine hv]
  rfl

/-! ### Decode, then encode (R163) -/

/-- The number that up to eight groups spell gives them back. -/
theorem groupAt_eq_of_closedValue_eq {w w' : Window} :
    ∀ {n : Nat}, n ≤ 8 → closedValue n w = closedValue n w' → ∀ k, k < n → groupAt w k = groupAt w' k
  | 0, _, _, _, hk => absurd hk (Nat.not_lt_zero _)
  | n + 1, h8, heq, k, hk => by
    rw [closedValue_succ w (by omega), closedValue_succ w' (by omega)] at heq
    have hlow := (groupAt w n).isLt
    have hlow' := (groupAt w' n).isLt
    obtain rfl | hlt := Nat.eq_or_lt_of_le (Nat.le_of_lt_succ hk)
    · exact BitVec.eq_of_toNat_eq (by omega)
    · exact groupAt_eq_of_closedValue_eq (by omega) (by omega) k hlt

/-- Where two encodings have the same length, a byte that carries a flag is decided by its group. -/
theorem EndsAt.lane_eq_of_groupAt_eq {w w' : Window} {n k : Nat} (h : EndsAt w n) (h' : EndsAt w' n) (hk : k < n) (h8 : k < 8)
    (hgroup : groupAt w k = groupAt w' k) : lane w k = lane w' k := by
  rw [groupAt_eq_setWidth_lane, groupAt_eq_setWidth_lane] at hgroup
  refine byte_ext ?_ hgroup
  obtain hlt | rfl : k + 1 < n ∨ n = k + 1 := by omega
  · rw [h.flagged k hlt, h'.flagged k hlt]
  · exact (h.terminal h8).trans (h'.terminal h8).symm

/-- Encodings of the same length that spell the same number have the same bytes. -/
theorem EndsAt.lanes_eq_of_closedValue_eq {w w' : Window} {n : Nat} (h : EndsAt w n) (h' : EndsAt w' n)
    (heq : closedValue n w = closedValue n w') {k : Nat} (hk : k < n) : lane w k = lane w' k := by
  obtain h8 | rfl : n ≤ 8 ∨ n = 9 := by have := h.le_nine; omega
  · exact h.lane_eq_of_groupAt_eq h' hk (by omega) (groupAt_eq_of_closedValue_eq h8 heq k hk)
  · rw [closedValue_nine, closedValue_nine] at heq
    have hlast := (lane w 8).isLt
    have hlast' := (lane w' 8).isLt
    obtain hlt | rfl : k < 8 ∨ k = 8 := by omega
    · exact h.lane_eq_of_groupAt_eq h' hk hlt (groupAt_eq_of_closedValue_eq (by decide) (by omega) k hlt)
    · exact BitVec.eq_of_toNat_eq (by omega)

/-- A window as long as the encoding of its value holds that encoding. -/
theorem lane_vencode_vdecode {w : Window} (h : EndsAt w (varintLen (vdecode w).value)) {k : Nat}
    (hk : k < varintLen (vdecode w).value) : lane (vencode (vdecode w).value).data k = lane w k := by
  have hwin := endsAt_winOf_vencode (vdecode w).value w
  have hvalue := vdecode_winOf_value (vdecode w).value w
  rw [lane_vencode_of_lt hk, ← lane_winOf_vencode w hk]
  refine hwin.lanes_eq_of_closedValue_eq h ?_ hk
  rw [← vdecode_value_toNat hwin, ← vdecode_value_toNat h, hvalue]

/-- A window is overlong unless the encoding of its value is as long (R86). -/
theorem not_overlong_iff_len_eq (w : Window) : ¬ Overlong w ↔ (vencode (vdecode w).value).len = (vdecode w).len := by
  obtain ⟨hle, -⟩ := encoderIsMinimal _ w rfl
  rw [← BitVec.toNat_inj, vencode_len_toNat, Overlong]
  omega

/-- Settles O45: the encoder is minimal, and equal lengths and values leave no choice of bytes. -/
theorem decodeThenEncodeShortens : Obligations.DecodeThenEncodeShortens := by
  intro w
  obtain ⟨hle, hlen⟩ := encoderIsMinimal _ w rfl
  have hiff := not_overlong_iff_len_eq w
  refine ⟨hlen.trans_le hle, hiff.symm, hiff.trans ⟨fun heq => ⟨heq, ?_⟩, And.left⟩⟩
  obtain ⟨n, hn⟩ := exists_endsAt w
  obtain rfl : varintLen (vdecode w).value = n := by rw [← hlen, heq, vdecode_len_toNat hn]
  rw [vdecode_len_toNat hn]
  exact fun k hk => lane_vencode_vdecode hn hk

end Sys2Proof.Machine
end

section
/-! PROOF. The edge of an engine as one function of the state (R26, R27), and that the edges of different engines commute (R53, R169). -/

namespace Sys2Proof.Machine

/-! ### The edge as a function -/

/-- The port after an edge of its engine, whose response to a request is `made`. -/
def Port.afterEdge {κ ρ : Type} (made : κ → ρ) (rst : Bool) (p : Port κ ρ) : Port κ ρ :=
  match p.taken rst with
  | some _ => { p with slot := .empty }
  | none =>
    match p.sampled rst with
    | some q => ⟨.full (made q), none, p.rspReady⟩
    | none => p

theorem afterEdge_of_taken {κ ρ : Type} (made : κ → ρ) {rst : Bool} {p : Port κ ρ} {r : ρ} (h : p.taken rst = some r) :
    p.afterEdge made rst = { p with slot := .empty } := by
  simp [Port.afterEdge, h]

theorem afterEdge_of_sampled {κ ρ : Type} (made : κ → ρ) {rst : Bool} {p : Port κ ρ} {q : κ} (h : p.sampled rst = some q)
    (ht : p.taken rst = none) : p.afterEdge made rst = ⟨.full (made q), none, p.rspReady⟩ := by
  simp [Port.afterEdge, h, ht]

theorem afterEdge_of_disabled {κ ρ : Type} (made : κ → ρ) {rst : Bool} {p : Port κ ρ} (h : p.sampled rst = none)
    (ht : p.taken rst = none) : p.afterEdge made rst = p := by
  simp [Port.afterEdge, h, ht]

/-- The engine's port after its edge, the others as they are. -/
def State.edgePorts (s : State) : EngineId → State
  | .enc i => { s with encs := s.encs.modify i (Port.afterEdge vencode s.rst) }
  | .dec i => { s with decs := s.decs.modify i (Port.afterEdge (fun o => vdecode o.window) s.rst) }

/-- The state after an edge of an engine: its port, and what the host receives. -/
def State.afterEdge (s : State) (e : EngineId) : State :=
  { s.edgePorts e with received := (deliverable s e).toList ++ s.received }

theorem afterEdge_enc {s : State} {i : Nat} {p : EncPort} (hp : s.encs[i]? = some p) :
    s.afterEdge (.enc i) = { s.setEnc i (p.afterEdge vencode s.rst) with
      received := ((p.taken s.rst).map (Response.enc i)).toList ++ s.received } := by
  simp only [State.afterEdge, State.edgePorts, modify_eq_set hp, deliverable, hp]
  rfl

theorem afterEdge_dec {s : State} {i : Nat} {p : DecPort} (hp : s.decs[i]? = some p) :
    s.afterEdge (.dec i) = { s.setDec i (p.afterEdge (fun o => vdecode o.window) s.rst) with
      received := ((p.taken s.rst).map (Response.dec i)).toList ++ s.received } := by
  simp only [State.afterEdge, State.edgePorts, modify_eq_set hp, deliverable, hp]
  rfl

theorem engineStep_enc_eq_afterEdge {s : State} {i : Nat} {p : EncPort} (hp : s.encs[i]? = some p) :
    engineStep (.enc i) s = .next (s.afterEdge (.enc i)) := by
  rw [afterEdge_enc hp]
  cases ht : p.taken s.rst with
  | some r => rw [engineStep_deliver_enc hp ht, afterEdge_of_taken _ ht]; rfl
  | none =>
    cases hv : p.sampled s.rst with
    | some v => rw [engineStep_accept_enc hp hv, afterEdge_of_sampled _ hv ht]; rfl
    | none => rw [engineStep_disabled_enc hp hv ht, afterEdge_of_disabled _ hv ht, State.setEnc, set_same hp]; rfl

theorem engineStep_dec_eq_afterEdge {s : State} {i : Nat} {p : DecPort} (hp : s.decs[i]? = some p) :
    engineStep (.dec i) s = .next (s.afterEdge (.dec i)) := by
  rw [afterEdge_dec hp]
  cases ht : p.taken s.rst with
  | some r => rw [engineStep_deliver_dec hp ht, afterEdge_of_taken _ ht]; rfl
  | none =>
    cases ho : p.sampled s.rst with
    | some o => rw [engineStep_accept_dec hp ho, afterEdge_of_sampled _ ho ht]; rfl
    | none => rw [engineStep_disabled_dec hp ho ht, afterEdge_of_disabled _ ho ht, State.setDec, set_same hp]; rfl

/-- An edge of an engine that the block has answers the state after it. -/
theorem engineStep_eq_afterEdge {s : State} {e : EngineId} (he : s.hasEngine e = true) :
    engineStep e s = .next (s.afterEdge e) := by
  cases e with
  | enc i => obtain ⟨p, hp⟩ := hasEngine_enc.mp he; exact engineStep_enc_eq_afterEdge hp
  | dec i => obtain ⟨p, hp⟩ := hasEngine_dec.mp he; exact engineStep_dec_eq_afterEdge hp

/-! ### What an edge leaves to the other engines (R169) -/

theorem afterEdge_received (s : State) (e : EngineId) : (s.afterEdge e).received = (deliverable s e).toList ++ s.received := rfl

theorem hasEngine_afterEdge (s : State) (e f : EngineId) : (s.afterEdge e).hasEngine f = s.hasEngine f := by
  cases e with
  | enc i =>
    cases f with
    | enc j => simp [State.afterEdge, State.edgePorts, State.hasEngine]
    | dec j => rfl
  | dec i =>
    cases f with
    | enc j => rfl
    | dec j => simp [State.afterEdge, State.edgePorts, State.hasEngine]

/-- An edge does not change what another engine hands over. -/
theorem deliverable_afterEdge (s : State) {e f : EngineId} (h : e ≠ f) : deliverable (s.afterEdge e) f = deliverable s f := by
  cases e with
  | enc i =>
    cases f with
    | enc j =>
      have hij : i ≠ j := fun heq => h (congrArg EngineId.enc heq)
      simp [State.afterEdge, State.edgePorts, deliverable, hij]
    | dec j => rfl
  | dec i =>
    cases f with
    | enc j => rfl
    | dec j =>
      have hij : i ≠ j := fun heq => h (congrArg EngineId.dec heq)
      simp [State.afterEdge, State.edgePorts, deliverable, hij]

/-- Edges of different engines change different ports. -/
theorem edgePorts_afterEdge_comm (s : State) {e f : EngineId} (h : e ≠ f) :
    { (s.afterEdge e).edgePorts f with received := [] } = { (s.afterEdge f).edgePorts e with received := [] } := by
  cases e with
  | enc i =>
    cases f with
    | enc j =>
      have hij : i ≠ j := fun heq => h (congrArg EngineId.enc heq)
      simp [State.afterEdge, State.edgePorts, List.modify_modify_ne _ _ _ hij]
    | dec j => rfl
  | dec i =>
    cases f with
    | enc j => rfl
    | dec j =>
      have hij : i ≠ j := fun heq => h (congrArg EngineId.dec heq)
      simp [State.afterEdge, State.edgePorts, List.modify_modify_ne _ _ _ hij]

/-- Settles O58: either order leaves both ports after their edges, and the host with both engines' responses. -/
theorem enginesCommute : Obligations.EnginesCommute := by
  intro s e f hne he hf
  refine ⟨_, _, _, _, engineStep_eq_afterEdge he, engineStep_eq_afterEdge ((hasEngine_afterEdge s e f).trans hf),
    engineStep_eq_afterEdge hf, engineStep_eq_afterEdge ((hasEngine_afterEdge s f e).trans he),
    edgePorts_afterEdge_comm s hne, ?_⟩
  rw [afterEdge_received, afterEdge_received, afterEdge_received, afterEdge_received, deliverable_afterEdge s hne,
    deliverable_afterEdge s hne.symm]
  exact List.perm_append_comm_assoc ..

end Sys2Proof.Machine
end

section
/-! PROOF. The obligation on exceptions: an instruction stops only for a missing engine (R180, R89; logs 1 and 19). -/

namespace Sys2Proof.Machine

/-! ### A missing engine (log 1) -/

theorem hasEngine_enc_eq_false {s : State} {i : Nat} : s.hasEngine (.enc i) = false ↔ s.encs[i]? = none := by
  simp [State.hasEngine]

theorem hasEngine_dec_eq_false {s : State} {i : Nat} : s.hasEngine (.dec i) = false ↔ s.decs[i]? = none := by
  simp [State.hasEngine]

theorem acceptEnc_of_none {s : State} {i : Nat} (h : s.encs[i]? = none) (r : EncRsp) :
    acceptEnc i r s = .refused (.noEngine (.enc i)) := by simp [acceptEnc, h]

theorem acceptDec_of_none {s : State} {i : Nat} (h : s.decs[i]? = none) (r : DecRsp) :
    acceptDec i r s = .refused (.noEngine (.dec i)) := by simp [acceptDec, h]

/-! ### Instructions by whether their engine exists -/

/-- The accept step of an engine that exists answers a next state: a busy one or one in reset too (D19, log 19). -/
theorem exec_of_hasEngine {s : State} {i : Instr} (h : s.hasEngine (target i) = true) : ∃ t, exec i s = .next t := by
  cases htarget : target i with
  | enc e =>
    obtain ⟨p, hp⟩ := hasEngine_enc.mp (htarget ▸ h)
    obtain ⟨r, hr⟩ := exec_of_target_enc htarget
    exact ⟨_, (hr s).trans (acceptEnc_of hp r)⟩
  | dec n =>
    obtain ⟨p, hp⟩ := hasEngine_dec.mp (htarget ▸ h)
    obtain ⟨r, hr⟩ := exec_of_target_dec htarget
    exact ⟨_, (hr s).trans (acceptDec_of hp r)⟩

theorem exec_of_missing_engine {s : State} {i : Instr} (h : s.hasEngine (target i) = false) :
    exec i s = .refused (.noEngine (target i)) := by
  cases htarget : target i with
  | enc e =>
    obtain ⟨r, hr⟩ := exec_of_target_enc htarget
    rw [hr, acceptEnc_of_none (hasEngine_enc_eq_false.mp (htarget ▸ h))]
  | dec n =>
    obtain ⟨r, hr⟩ := exec_of_target_dec htarget
    rw [hr, acceptDec_of_none (hasEngine_dec_eq_false.mp (htarget ▸ h))]

/-- Settles O12: every instruction is the accept step of its engine, which looks only for the engine. -/
theorem execStopsOnlyForMissingEngine : Obligations.ExecStopsOnlyForMissingEngine :=
  fun _ _ => ⟨exec_of_hasEngine, exec_of_missing_engine⟩

end Sys2Proof.Machine
end

section
/-! PROOF. The obligations on reset and on the host's signals (R210 to R212, R222): what reset leaves, and what a host's move can
change. -/

namespace Sys2Proof.Machine

/-! ### Reset (R210 to R212) -/

theorem resetOf_encs_getElem? {m i : Nat} (h : i < m) (n : Nat) : (State.resetOf m n).encs[i]? = some Port.idle :=
  List.getElem?_replicate_of_lt h

theorem resetOf_decs_getElem? {n i : Nat} (h : i < n) (m : Nat) : (State.resetOf m n).decs[i]? = some Port.idle :=
  List.getElem?_replicate_of_lt h

/-- A port with nothing pending takes any offer. -/
theorem offerEnc_of_none {s : State} {i : Nat} {p : EncPort} (hp : s.encs[i]? = some p) (hreq : p.req = none) (v : Value) :
    offerEnc i v s = .next (s.setEnc i { p with req := some v }) := by
  simp [offerEnc, hp, Port.mayOffer, hreq]

/-- Settles O1: every port right after reset is idle with nothing pending, and `rst` is released. -/
theorem resetLeavesEnginesReady : Obligations.ResetLeavesEnginesReady := by
  refine fun nEnc nDec => ⟨fun i hi => ?_, fun i hi => ?_⟩
  · have hp := resetOf_encs_getElem? hi nDec
    rw [State.encReqReady, State.encRspValid, hp]
    exact ⟨rfl, rfl, fun v => ⟨_, offerEnc_of_none hp rfl v⟩⟩
  · have hp := resetOf_decs_getElem? hi nEnc
    rw [State.decReqReady, State.decRspValid, hp]
    exact ⟨rfl, rfl, fun o => ⟨_, offerDec_of_none hp rfl o⟩⟩

theorem driveReset_true_allEmpty (s : State) : (driveReset true s).allEmpty := by
  constructor
  · intro p hp
    obtain ⟨p₀, -, rfl⟩ := List.mem_map.mp hp
    rfl
  · intro p hp
    obtain ⟨p₀, -, rfl⟩ := List.mem_map.mp hp
    rfl

/-- While `rst` is asserted no ready or valid signal of the block is. -/
theorem signals_of_reset {s : State} (h : s.rst = true) (i : Nat) :
    s.encReqReady i = false ∧ s.encRspValid i = false ∧ s.decReqReady i = false ∧ s.decRspValid i = false := by
  rw [State.encReqReady, State.encRspValid, State.decReqReady, State.decRspValid, h]
  refine ⟨?_, ?_, ?_, ?_⟩
  · cases s.encs[i]? <;> rfl
  · cases s.encs[i]? <;> rfl
  · cases s.decs[i]? <;> rfl
  · cases s.decs[i]? <;> rfl

theorem sampled_of_reset {κ ρ : Type} {rst : Bool} (h : rst = true) (p : Port κ ρ) : p.sampled rst = none := by
  simp [Port.sampled, Port.reqReady, h]

theorem taken_of_reset {κ ρ : Type} {rst : Bool} (h : rst = true) (p : Port κ ρ) : p.taken rst = none :=
  Option.eq_none_iff_forall_ne_some.mpr fun r hr => by
    obtain ⟨hrst, -, -⟩ := taken_eq_some.mp hr
    rw [h] at hrst
    cases hrst

/-- While `rst` is asserted no engine accepts or delivers. -/
theorem engineStep_of_reset {s : State} (h : s.rst = true) {e : EngineId} (he : s.hasEngine e = true) :
    engineStep e s = .next s := by
  cases e with
  | enc i =>
    obtain ⟨p, hp⟩ := hasEngine_enc.mp he
    exact engineStep_disabled_enc hp (sampled_of_reset h p) (taken_of_reset h p)
  | dec i =>
    obtain ⟨p, hp⟩ := hasEngine_dec.mp he
    exact engineStep_disabled_dec hp (sampled_of_reset h p) (taken_of_reset h p)

/-- Settles O3: reset empties the slot of every port, and neither step of a port is enabled while `rst` is asserted. -/
theorem resetEmptiesSlotsAndStopsEngines : Obligations.ResetEmptiesSlotsAndStopsEngines :=
  ⟨fun s => ⟨driveReset_true_allEmpty s, rfl, rfl, List.length_map .., List.length_map ..⟩,
   fun _ h => ⟨signals_of_reset h, fun _ => engineStep_of_reset h⟩⟩

/-- After reset is asserted and released an engine is idle, whatever its slot held. -/
theorem idle_driveReset {s : State} {e : EngineId} (h : s.hasEngine e = true) : (driveReset false (driveReset true s)).idle e := by
  cases e with
  | enc i =>
    obtain ⟨p, hp⟩ := hasEngine_enc.mp h
    exact ⟨{ p with slot := .empty }, by simp [hp], rfl⟩
  | dec i =>
    obtain ⟨p, hp⟩ := hasEngine_dec.mp h
    exact ⟨{ p with slot := .empty }, by simp [hp], rfl⟩

theorem encRspValid_of_signals {s : State} {i : Nat} (h : s.encRspSignals i ≠ none) : s.encRspValid i = true := by
  cases hp : s.encs[i]? with
  | none => simp [State.encRspSignals, hp] at h
  | some p =>
    simp only [State.encRspSignals, State.encRspValid, hp, Option.bind_some, Option.elim_some] at h ⊢
    exact eq_true_of_ne_false fun hvalid => h (rspSignals_of_not_rspValid hvalid)

theorem decRspValid_of_signals {s : State} {i : Nat} (h : s.decRspSignals i ≠ none) : s.decRspValid i = true := by
  cases hp : s.decs[i]? with
  | none => simp [State.decRspSignals, hp] at h
  | some p =>
    simp only [State.decRspSignals, State.decRspValid, hp, Option.bind_some, Option.elim_some] at h ⊢
    exact eq_true_of_ne_false fun hvalid => h (rspSignals_of_not_rspValid hvalid)

/-- Settles O4: an engine after reset is idle, and idle engines give a request the same response. -/
theorem reissueAfterResetGivesSameResponse : Obligations.ReissueAfterResetGivesSameResponse := by
  intro s u i he hu hidle
  obtain ⟨t, x, ht, hx, henc, hdec⟩ :=
    responseDependsOnRequestAlone _ u i (driveReset_rst _ false) hu (idle_driveReset he) hidle
  exact ⟨t, x, ht, hx, fun k hk => (henc k hk).imp_right encRspValid_of_signals,
    fun k hk => (hdec k hk).imp_right decRspValid_of_signals⟩

/-! ### Pending offers (R222, U10) -/

/-- Outside reset only the pending payload may be offered again. -/
theorem mayOffer_of_pending {κ ρ : Type} [DecidableEq κ] {p : Port κ ρ} {v : κ} (h : p.req = some v) (u : κ) :
    p.mayOffer false u = decide (u = v) := by
  simp [Port.mayOffer, h, eq_comm]

/-- Outside reset a pending offer may not be withdrawn. -/
theorem mayWithdraw_of_pending {κ ρ : Type} {p : Port κ ρ} {v : κ} (h : p.req = some v) : p.mayWithdraw false = false := by
  simp [Port.mayWithdraw, h]

/-- A port whose pending payload is offered again is as it was. -/
theorem reoffer_eq {κ ρ : Type} {p : Port κ ρ} {v : κ} (h : p.req = some v) : { p with req := some v } = p := by
  rw [← h]

theorem setEnc_same {s : State} {i : Nat} {p : EncPort} (hp : s.encs[i]? = some p) : s.setEnc i p = s := by
  rw [State.setEnc, set_same hp]

theorem setDec_same {s : State} {i : Nat} {p : DecPort} (hp : s.decs[i]? = some p) : s.setDec i p = s := by
  rw [State.setDec, set_same hp]

/-- Settles O56: the host may only offer again what is pending, which leaves the port as it is. -/
theorem pendingOffersAreHeld : Obligations.PendingOffersAreHeld := by
  constructor
  · intro s i p v u hrst hp hreq
    refine ⟨fun hne => ?_, ?_, ?_⟩
    · simp [offerEnc, hp, hrst, mayOffer_of_pending hreq, hne]
    · simp [offerEnc, hp, hrst, mayOffer_of_pending hreq, reoffer_eq hreq, setEnc_same hp]
    · simp [withdraw, hp, hrst, mayWithdraw_of_pending hreq]
  · intro s i p o u hrst hp hreq
    refine ⟨fun hne => ?_, ?_, ?_⟩
    · simp [offerDec, hp, hrst, mayOffer_of_pending hreq, hne]
    · simp [offerDec, hp, hrst, mayOffer_of_pending hreq, reoffer_eq hreq, setDec_same hp]
    · simp [withdraw, hp, hrst, mayWithdraw_of_pending hreq]

/-! ### What a host's move can change (R222) -/

/-- What a move of the host other than on `rst` can do: replace one port by one with the same slot, or change the host's own memory
and position. `request` says whether the move offers a request; one that does not leaves a port without an offer so. -/
inductive HostMove (request : Bool) (s : State) : State → Prop where
  | enc {i : Nat} {p p' : EncPort} (hp : s.encs[i]? = some p) (hslot : p'.slot = p.slot)
      (hreq : request = false → p.req = none → p'.req = none) : HostMove request s (s.setEnc i p')
  | dec {i : Nat} {p p' : DecPort} (hp : s.decs[i]? = some p) (hslot : p'.slot = p.slot)
      (hreq : request = false → p.req = none → p'.req = none) : HostMove request s (s.setDec i p')
  | own (m : Memory) (pos : Nat) : HostMove request s { s with hostMem := m, hostPos := pos }

theorem hostMove_of_offerDec {i : Nat} {o : Offer} {s t : State} (h : offerDec i o s = .next t) : HostMove true s t := by
  obtain ⟨p, hp, -, rfl⟩ := offerDec_next h
  exact .dec hp rfl nofun

theorem hostMove_of_storeRsp {all : Bool} {i base room : Nat} {s t : State} (h : storeRsp all i base room s = .next t) :
    HostMove false s t := by
  obtain ⟨-, r, -, rfl⟩ := storeRsp_next h
  exact .own _ s.hostPos

theorem hostMove_of_runEvent {ev : Event} {s t : State} (hengine : ∀ e, ev ≠ .engine e) (hrst : ∀ b, ev ≠ .setRst b)
    (h : runEvent ev s = .next t) : HostMove (isRequest ev) s t := by
  cases ev with
  | setRst b => exact absurd rfl (hrst b)
  | offerEnc i v =>
    obtain ⟨p, hp, -, rfl⟩ := offerEnc_next h
    exact .enc hp rfl nofun
  | offerDec i o => exact hostMove_of_offerDec h
  | withdraw e =>
    obtain ⟨i, p, -, hp, -, rfl⟩ | ⟨i, p, -, hp, -, rfl⟩ := withdraw_next h
    · exact .enc hp rfl fun _ _ => rfl
    · exact .dec hp rfl fun _ _ => rfl
  | setReady e b =>
    obtain ⟨i, p, -, hp, rfl⟩ | ⟨i, p, -, hp, rfl⟩ := setReady_next h
    · exact .enc hp rfl fun _ => id
    · exact .dec hp rfl fun _ => id
  | engine e => exact absurd rfl (hengine e)
  | storeStrobed i base room => exact hostMove_of_storeRsp h
  | storeAllLanes i base room => exact hostMove_of_storeRsp h
  | offerStream i reading fin pad =>
    obtain ⟨real, -, -, hoffer⟩ := offerStream_next h
    exact hostMove_of_offerDec hoffer
  | advance i =>
    obtain ⟨r, -, rfl⟩ := advance_next h
    exact .own s.hostMem _
  | seek pos => cases h; exact .own s.hostMem pos
  | poke a b => cases h; exact .own _ s.hostPos

/-- Replacing a port by one with the same slot leaves the list of slots. -/
theorem map_slot_set {κ ρ : Type} {ps : List (Port κ ρ)} {i : Nat} {p p' : Port κ ρ} (hp : ps[i]? = some p)
    (hslot : p'.slot = p.slot) : (ps.set i p').map Port.slot = ps.map Port.slot := by
  rw [List.map_set, hslot, set_same (by simp [hp])]

/-- Settles O14: releasing `rst` touches no port, and a host's move keeps the slot of the port that it touches. -/
theorem hostCannotWriteSlots : Obligations.HostCannotWriteSlots := by
  intro ev s t hengine hassert h
  by_cases hrelease : ev = .setRst false
  · subst hrelease
    cases h
    exact ⟨rfl, rfl, rfl⟩
  · have hrst : ∀ b, ev ≠ .setRst b := fun b => by
      cases b with
      | false => exact hrelease
      | true => exact hassert
    cases hostMove_of_runEvent hengine hrst h with
    | enc hp hslot => exact ⟨map_slot_set hp hslot, rfl, rfl⟩
    | dec hp hslot => exact ⟨rfl, map_slot_set hp hslot, rfl⟩
    | own => exact ⟨rfl, rfl, rfl⟩

end Sys2Proof.Machine
end

section
/-! PROOF. The obligation on truncated encodings (R226): the flags of the pad decide where the encoding ends. -/

namespace Sys2Proof.Machine

theorem lt_of_flagged {w : Window} {m n : Nat} (h : EndsAt w n) (h8 : m ≤ 8) (hflags : ∀ k, k < m → contFlag (lane w k) = true) :
    m < n := by
  by_contra hle
  have hpos := h.pos
  have hclear := h.terminal (by omega)
  rw [hflags (n - 1) (by omega)] at hclear
  cases hclear

/-- After `m` flagged bytes a byte whose flag is clear ends the encoding; the ninth byte ends it whatever its flag. -/
theorem endsAt_of_clear_after {w : Window} {m : Nat} (h8 : m ≤ 8) (hflags : ∀ k, k < m → contFlag (lane w k) = true)
    (hclear : contFlag (lane w m) = false) : EndsAt w (m + 1) :=
  ⟨by omega, by omega, fun k hk => hflags k (by omega), fun _ => hclear⟩

theorem endsAt_nine_of_flagged {w : Window} (hflags : ∀ k, k < 8 → contFlag (lane w k) = true) : EndsAt w 9 :=
  ⟨by decide, by decide, fun k hk => hflags k (by omega), fun h => absurd h (by decide)⟩

/-- Settles O42: the encoding does not end among the flagged bytes, ends at the first zero byte, and runs through bytes 0xFF. -/
theorem truncatedEncodingReadsPad : Obligations.TruncatedEncodingReadsPad := by
  intro w m _ h8 hflags
  refine ⟨?_, fun hzero => vdecode_len_toNat ?_, fun hones => vdecode_len_toNat ?_⟩
  · obtain ⟨n, hn⟩ := exists_endsAt w
    rw [vdecode_len_toNat hn]
    exact lt_of_flagged hn h8 hflags
  · refine endsAt_of_clear_after h8 hflags ?_
    rw [hzero m (Nat.le_refl m) (by omega)]
    rfl
  · refine endsAt_nine_of_flagged fun k hk => ?_
    by_cases hkm : k < m
    · exact hflags k hkm
    · rw [hones k (by omega) (by omega)]
      rfl

end Sys2Proof.Machine
end

section
/-! PROOF. The obligation on the end of a run (R230, R232): every step of a run without a script takes one off what the block owes,
and a state that owes nothing is final. -/

namespace Sys2Proof.Machine

/-! ### What one port owes -/

section Ports
variable {κ ρ : Type} {p : Port κ ρ}

theorem work_eq_zero_iff : p.work = 0 ↔ p.slot = .empty ∧ p.req = none := by
  cases hslot : p.slot <;> cases hreq : p.req <;> simp [Port.work, hslot, hreq]

theorem owed_of_quiet (hslot : p.slot = .empty) (hreq : p.req = none) : p.owed = 0 := by
  simp [Port.owed, hslot, hreq]

/-- A port that owes a step, and whose host takes responses, has one enabled outside reset. -/
theorem enabled_of_work_ne_zero (hready : p.rspReady = true) (hwork : p.work ≠ 0) : p.enabled false = true := by
  cases hslot : p.slot with
  | full r => simp [Port.enabled, taken_eq_some.mpr ⟨rfl, hslot, hready⟩]
  | empty =>
    cases hreq : p.req with
    | none => exact absurd (work_eq_zero_iff.mpr ⟨hslot, hreq⟩) hwork
    | some q => simp [Port.enabled, sampled_eq_some.mpr ⟨rfl, hslot, hreq⟩]

theorem afterEdge_rspReady (made : κ → ρ) (rst : Bool) (p : Port κ ρ) : (p.afterEdge made rst).rspReady = p.rspReady := by
  unfold Port.afterEdge
  split
  · rfl
  · split <;> rfl

/-- An enabled edge takes one off the steps that the port owes, and off the responses what it hands over. -/
theorem afterEdge_work_and_owed (made : κ → ρ) {rst : Bool} (h : p.enabled rst = true) :
    (p.afterEdge made rst).work + 1 = p.work ∧ (p.afterEdge made rst).owed + (p.taken rst).toList.length = p.owed := by
  cases ht : p.taken rst with
  | some r =>
    obtain ⟨-, hslot, -⟩ := taken_eq_some.mp ht
    rw [afterEdge_of_taken made ht]
    simp [Port.work, Port.owed, hslot, Nat.add_comm]
  | none =>
    obtain ⟨q, hq⟩ : ∃ q, p.sampled rst = some q := by simpa [Port.enabled, ht, Option.isSome_iff_exists] using h
    obtain ⟨-, hslot, hreq⟩ := sampled_eq_some.mp hq
    rw [afterEdge_of_sampled made hq ht]
    simp [Port.work, Port.owed, hslot, hreq]

end Ports

/-- Replacing an element of a list moves its sum by the change of that element. -/
theorem sum_map_set {α : Type} (f : α → Nat) {x : α} (x' : α) :
    ∀ {xs : List α} {i : Nat}, xs[i]? = some x → ((xs.set i x').map f).sum + f x = (xs.map f).sum + f x'
  | [], _, h => by cases h
  | y :: ys, 0, h => by
    obtain rfl : y = x := Option.some.inj h
    simp only [List.set_cons_zero, List.map_cons, List.sum_cons]
    omega
  | y :: ys, i + 1, h => by
    have ih := sum_map_set f x' (xs := ys) (i := i) h
    simp only [List.set_cons_succ, List.map_cons, List.sum_cons]
    omega

/-! ### Final states -/

theorem sum_work_eq_zero_iff {κ ρ : Type} {ps : List (Port κ ρ)} :
    (ps.map Port.work).sum = 0 ↔ ∀ p ∈ ps, p.slot = .empty ∧ p.req = none := by
  simp only [List.sum_eq_zero_iff, List.forall_mem_map, work_eq_zero_iff]

theorem final_of_work_eq_zero {s : State} (hscript : s.script = []) (hwork : s.work = 0) : Final s := by
  obtain ⟨hencs, hdecs⟩ := Nat.add_eq_zero_iff.mp hwork
  rw [sum_work_eq_zero_iff] at hencs hdecs
  exact ⟨⟨fun p hp => (hencs p hp).2, fun p hp => (hdecs p hp).2, by simp [hscript]⟩,
    fun p hp => (hencs p hp).1, fun p hp => (hdecs p hp).1⟩

theorem owed_of_final {s : State} (h : Final s) : s.owed = 0 := by
  obtain ⟨⟨hencReq, hdecReq, -⟩, hencSlot, hdecSlot⟩ := h
  refine Nat.add_eq_zero_iff.mpr ⟨List.sum_eq_zero_iff.mpr ?_, List.sum_eq_zero_iff.mpr ?_⟩
  · exact List.forall_mem_map.mpr fun p hp => owed_of_quiet (hencSlot p hp) (hencReq p hp)
  · exact List.forall_mem_map.mpr fun p hp => owed_of_quiet (hdecSlot p hp) (hdecReq p hp)

theorem not_final_of_busy {s : State} {e : EngineId} (h : s.busy e) : ¬ Final s := by
  rintro ⟨-, hencSlot, hdecSlot⟩
  cases e with
  | enc i =>
    obtain ⟨p, r, hp, hr⟩ := h
    rw [hencSlot p (List.mem_of_getElem? hp)] at hr
    cases hr
  | dec i =>
    obtain ⟨p, r, hp, hr⟩ := h
    rw [hdecSlot p (List.mem_of_getElem? hp)] at hr
    cases hr

/-! ### A run without a script -/

/-- What holds all along a run that drains: no move is scripted, `rst` is released, and the host takes every response. -/
structure State.Draining (s : State) : Prop where
  unscripted : s.script = []
  released : s.rst = false
  takes : s.hostTakes

/-- `t` comes after `s` in a run that drains: what was owed is owed still or was received since, and nothing received was lost. -/
structure DrainsTo (s t : State) : Prop where
  draining : t.Draining
  accounted : t.received.length + t.owed = s.received.length + s.owed
  kept : s.received <:+ t.received

theorem DrainsTo.refl {s : State} (h : s.Draining) : DrainsTo s s := ⟨h, rfl, List.suffix_rfl⟩

theorem DrainsTo.trans {s t u : State} (h : DrainsTo s t) (h' : DrainsTo t u) : DrainsTo s u :=
  ⟨h'.draining, h'.accounted.trans h.accounted, h.kept.trans h'.kept⟩

/-- What holds of every element still does when one is replaced by another of which it holds. -/
theorem forall_mem_set {α : Type} {xs : List α} {i : Nat} {x' : α} {P : α → Prop} (h : ∀ x ∈ xs, P x) (hx' : P x') :
    ∀ x ∈ xs.set i x', P x := by
  intro x hx
  obtain hx | rfl := List.mem_or_eq_of_mem_set hx
  · exact h x hx
  · exact hx'

/-- Ports whose host is ready still have a ready host after an edge of one of them. -/
theorem rspReady_set_afterEdge {κ ρ : Type} {ps : List (Port κ ρ)} {i : Nat} {p : Port κ ρ} (made : κ → ρ) (rst : Bool)
    (h : ∀ q ∈ ps, q.rspReady = true) (hp : ps[i]? = some p) : ∀ q ∈ ps.set i (p.afterEdge made rst), q.rspReady = true :=
  forall_mem_set h ((afterEdge_rspReady made rst p).trans (h p (List.mem_of_getElem? hp)))

theorem afterEdge_enc_drains {s : State} (h : s.Draining) {i : Nat} {p : EncPort} (hp : s.encs[i]? = some p)
    (hen : p.enabled s.rst = true) : DrainsTo s (s.afterEdge (.enc i)) ∧ (s.afterEdge (.enc i)).work + 1 = s.work := by
  obtain ⟨hwork, howed⟩ := afterEdge_work_and_owed vencode hen
  have hsumWork := sum_map_set Port.work (p.afterEdge vencode s.rst) hp
  have hsumOwed := sum_map_set Port.owed (p.afterEdge vencode s.rst) hp
  rw [afterEdge_enc hp]
  refine ⟨⟨⟨h.unscripted, h.released, rspReady_set_afterEdge _ _ h.takes.1 hp, h.takes.2⟩, ?_, List.suffix_append ..⟩, ?_⟩
  · simp only [State.owed, setEnc_encs, setEnc_decs, List.length_append, Option.length_toList, Option.isSome_map] at howed ⊢
    omega
  · simp only [State.work, setEnc_encs, setEnc_decs]
    omega

theorem afterEdge_dec_drains {s : State} (h : s.Draining) {i : Nat} {p : DecPort} (hp : s.decs[i]? = some p)
    (hen : p.enabled s.rst = true) : DrainsTo s (s.afterEdge (.dec i)) ∧ (s.afterEdge (.dec i)).work + 1 = s.work := by
  obtain ⟨hwork, howed⟩ := afterEdge_work_and_owed (fun o : Offer => vdecode o.window) hen
  have hsumWork := sum_map_set Port.work (p.afterEdge (fun o => vdecode o.window) s.rst) hp
  have hsumOwed := sum_map_set Port.owed (p.afterEdge (fun o => vdecode o.window) s.rst) hp
  rw [afterEdge_dec hp]
  refine ⟨⟨⟨h.unscripted, h.released, h.takes.1, rspReady_set_afterEdge _ _ h.takes.2 hp⟩, ?_, List.suffix_append ..⟩, ?_⟩
  · simp only [State.owed, setDec_encs, setDec_decs, List.length_append, Option.length_toList, Option.isSome_map] at howed ⊢
    omega
  · simp only [State.work, setDec_encs, setDec_decs]
    omega

theorem enc_mem_enabledEngines {s : State} {i : Nat} {p : EncPort} (hp : s.encs[i]? = some p) (hen : p.enabled s.rst = true) :
    .enc i ∈ enabledEngines s :=
  List.mem_append_left _ (mem_enabledFrom.mpr ⟨i, p, hp, hen, by rw [Nat.zero_add]⟩)

theorem dec_mem_enabledEngines {s : State} {i : Nat} {p : DecPort} (hp : s.decs[i]? = some p) (hen : p.enabled s.rst = true) :
    .dec i ∈ enabledEngines s :=
  List.mem_append_right _ (mem_enabledFrom.mpr ⟨i, p, hp, hen, by rw [Nat.zero_add]⟩)

/-- The edge of any enabled engine drains the block by one step. -/
theorem engineStep_drains {s : State} (h : s.Draining) {e : EngineId} (he : e ∈ enabledEngines s) :
    ∃ t, engineStep e s = .next t ∧ DrainsTo s t ∧ t.work + 1 = s.work := by
  obtain he | he := List.mem_append.mp he
  · obtain ⟨i, p, hp, hen, rfl⟩ := mem_enabledFrom.mp he
    rw [Nat.zero_add]
    exact ⟨_, engineStep_enc_eq_afterEdge hp, afterEdge_enc_drains h hp hen⟩
  · obtain ⟨i, p, hp, hen, rfl⟩ := mem_enabledFrom.mp he
    rw [Nat.zero_add]
    exact ⟨_, engineStep_dec_eq_afterEdge hp, afterEdge_dec_drains h hp hen⟩

theorem exists_work_ne_zero {κ ρ : Type} {ps : List (Port κ ρ)} (h : (ps.map Port.work).sum ≠ 0) :
    ∃ (i : Nat) (p : Port κ ρ), ps[i]? = some p ∧ p.work ≠ 0 := by
  simp only [ne_eq, List.sum_eq_zero_iff, List.forall_mem_map, not_forall] at h
  obtain ⟨p, hp, hwork⟩ := h
  obtain ⟨i, hi⟩ := List.mem_iff_getElem?.mp hp
  exact ⟨i, p, hi, hwork⟩

/-- While the block owes a step some engine has one enabled. -/
theorem enabledEngines_ne_nil {s : State} (h : s.Draining) (hwork : s.work ≠ 0) : enabledEngines s ≠ [] := by
  obtain ⟨hencs, hdecs⟩ := h.takes
  obtain hne | hne : (s.encs.map Port.work).sum ≠ 0 ∨ (s.decs.map Port.work).sum ≠ 0 := by
    rw [State.work] at hwork
    omega
  · obtain ⟨i, p, hp, hpwork⟩ := exists_work_ne_zero hne
    have hen := enabled_of_work_ne_zero (hencs p (List.mem_of_getElem? hp)) hpwork
    exact List.ne_nil_of_mem (enc_mem_enabledEngines hp (by rwa [h.released]))
  · obtain ⟨i, p, hp, hpwork⟩ := exists_work_ne_zero hne
    have hen := enabled_of_work_ne_zero (hdecs p (List.mem_of_getElem? hp)) hpwork
    exact List.ne_nil_of_mem (dec_mem_enabledEngines hp (by rwa [h.released]))

/-- Whichever engine the arbiter chooses, a step takes one off what the block owes. -/
theorem step_drains {s : State} (h : s.Draining) (hwork : s.work ≠ 0) :
    ∃ t, step s = .next t ∧ DrainsTo s t ∧ t.work + 1 = s.work := by
  obtain ⟨e, he⟩ := pick_isSome (t := s.tick) (enabledEngines_ne_nil h hwork)
  have hticked : State.Draining { s with tick := s.tick + 1 } := ⟨h.unscripted, h.released, h.takes⟩
  obtain ⟨t, ht, ⟨hdraining, haccounted, hkept⟩, hless⟩ := engineStep_drains hticked (pick_mem he)
  refine ⟨t, ?_, ⟨hdraining, haccounted, hkept⟩, hless⟩
  rw [step_unscripted h.unscripted, drainStep, he]
  exact ht

theorem run_succ {M : Host.Core} {s s' : M.State} (h : M.step s = .next s') (n : Nat) : M.run (n + 1) s = M.run n s' := by
  rw [Host.Core.run, h]

theorem run_drains : ∀ {n : Nat} {s : State}, s.Draining → s.work = n →
    ∃ t, Host.Core.run Sys2Proof.core n s = .next t ∧ DrainsTo s t ∧ t.work = 0
  | 0, s, h, hwork => ⟨s, rfl, .refl h, hwork⟩
  | n + 1, s, h, hwork => by
    obtain ⟨s', hstep, hto, hless⟩ := step_drains h (by omega)
    obtain ⟨t, hrun, hto', hzero⟩ := run_drains (n := n) hto.draining (by omega)
    refine ⟨t, ?_, hto.trans hto', hzero⟩
    exact (run_succ (M := Sys2Proof.core) hstep n).trans hrun

/-! ### A run that is over (R232) -/

theorem final_driveReset (b : Bool) {s : State} (h : Final s) : Final (driveReset b s) := by
  cases b with
  | false => exact h
  | true =>
    obtain ⟨⟨hencReq, hdecReq, hscript⟩, -⟩ := h
    exact ⟨⟨List.forall_mem_map.mpr hencReq, List.forall_mem_map.mpr hdecReq, hscript⟩, driveReset_true_allEmpty s⟩

/-- A host's move that offers no request leaves a final state final. -/
theorem final_of_hostMove {s t : State} (hs : Final s) (h : HostMove false s t) : Final t ∧ t.received = s.received := by
  obtain ⟨⟨hencReq, hdecReq, hscript⟩, hencSlot, hdecSlot⟩ := hs
  cases h with
  | enc hp hslot hreq =>
    have hmem := List.mem_of_getElem? hp
    exact ⟨⟨⟨forall_mem_set hencReq (hreq rfl (hencReq _ hmem)), hdecReq, hscript⟩,
      forall_mem_set hencSlot (hslot.trans (hencSlot _ hmem)), hdecSlot⟩, rfl⟩
  | dec hp hslot hreq =>
    have hmem := List.mem_of_getElem? hp
    exact ⟨⟨⟨hencReq, forall_mem_set hdecReq (hreq rfl (hdecReq _ hmem)), hscript⟩,
      hencSlot, forall_mem_set hdecSlot (hslot.trans (hdecSlot _ hmem))⟩, rfl⟩
  | own => exact ⟨⟨⟨hencReq, hdecReq, hscript⟩, hencSlot, hdecSlot⟩, rfl⟩

theorem sampled_of_no_request {κ ρ : Type} {p : Port κ ρ} (h : p.req = none) (rst : Bool) : p.sampled rst = none := by
  simp [Port.sampled, h]

theorem taken_of_empty {κ ρ : Type} {p : Port κ ρ} (h : p.slot = .empty) (rst : Bool) : p.taken rst = none := by
  simp [Port.taken, Port.rspSignals, h]

/-- No edge of an engine changes a final state. -/
theorem engineStep_of_final {s t : State} (hs : Final s) {e : EngineId} (h : engineStep e s = .next t) : t = s := by
  obtain ⟨⟨hencReq, hdecReq, -⟩, hencSlot, hdecSlot⟩ := hs
  obtain ⟨he, -⟩ := engineStep_next h
  cases e with
  | enc i =>
    obtain ⟨p, hp⟩ := hasEngine_enc.mp he
    have hmem := List.mem_of_getElem? hp
    rw [engineStep_disabled_enc hp (sampled_of_no_request (hencReq p hmem) _) (taken_of_empty (hencSlot p hmem) _)] at h
    cases h
    rfl
  | dec i =>
    obtain ⟨p, hp⟩ := hasEngine_dec.mp he
    have hmem := List.mem_of_getElem? hp
    rw [engineStep_disabled_dec hp (sampled_of_no_request (hdecReq p hmem) _) (taken_of_empty (hdecSlot p hmem) _)] at h
    cases h
    rfl

theorem final_of_runEvent {ev : Event} {s t : State} (hs : Final s) (hev : isRequest ev = false) (h : runEvent ev s = .next t) :
    Final t ∧ t.received = s.received := by
  by_cases hengine : ∃ e, ev = .engine e
  · obtain ⟨e, rfl⟩ := hengine
    obtain rfl := engineStep_of_final hs h
    exact ⟨hs, rfl⟩
  · by_cases hrst : ∃ b, ev = .setRst b
    · obtain ⟨b, rfl⟩ := hrst
      cases h
      exact ⟨final_driveReset b hs, driveReset_received s b⟩
    · have hmove := hostMove_of_runEvent (fun e he => hengine ⟨e, he⟩) (fun b hb => hrst ⟨b, hb⟩) h
      exact final_of_hostMove hs (hev ▸ hmove)

/-- A run that is over stays over, and delivers nothing more. -/
theorem final_of_step {s t : State} (hs : Final s) (h : step s = .next t) : Final t ∧ t.received = s.received := by
  obtain ⟨⟨hencReq, hdecReq, hscript⟩, hempty⟩ := hs
  cases hnext : s.script with
  | cons ev rest =>
    rw [hnext, List.forall_mem_cons] at hscript
    obtain ⟨hev, hrest⟩ := hscript
    rw [step_script hnext] at h
    exact final_of_runEvent (s := { s with script := rest }) ⟨⟨hencReq, hdecReq, hrest⟩, hempty⟩ hev h
  | nil =>
    rw [step_unscripted hnext, drainStep] at h
    split at h
    · cases h
      exact ⟨⟨⟨hencReq, hdecReq, hscript⟩, hempty⟩, rfl⟩
    · have hticked : Final { s with tick := s.tick + 1 } := ⟨⟨hencReq, hdecReq, hscript⟩, hempty⟩
      obtain rfl := engineStep_of_final hticked h
      exact ⟨hticked, rfl⟩

/-- Settles O60: every step of the run takes one off what is owed until the state is final, and a final state has nothing enabled. -/
theorem unscriptedRunDrains : Obligations.UnscriptedRunDrains := by
  refine ⟨fun s hscript hrst htakes => ?_, fun _ _ => not_final_of_busy, fun _ _ => final_of_step⟩
  obtain ⟨t, hrun, ⟨hdraining, haccounted, hkept⟩, hzero⟩ := run_drains (s := s) ⟨hscript, hrst, htakes⟩ rfl
  have hfinal := final_of_work_eq_zero hdraining.unscripted hzero
  rw [owed_of_final hfinal, Nat.add_zero] at haccounted
  exact ⟨t, hrun, hfinal, hdraining.unscripted, haccounted, hkept⟩

end Sys2Proof.Machine
end
